-- ==== Sys2Proof/Word.lean ====
section
/-! DEFINITION. The word types of the machine (spec 00_scope.md rule R10, 10_state.md rules R20, R25). -/

namespace Sys2Proof

/-- A byte of instruction memory. -/
abbrev Byte := BitVec 8

/-- A 32-bit word: an instruction word, one element of a general register, a 32-bit register, an address.
Bit `i` of the spec's left-to-right numbering of a 32-bit word is bit `31 - i` here (rule R10). -/
abbrev Word := BitVec 32

/-- A 64-bit general register (rule R20). -/
abbrev DWord := BitVec 64

/-- A register number: the content of a five-bit field RD, RA or RB (rules R21, R71). -/
abbrev RegNum := BitVec 5

end Sys2Proof
end

