-- ==== Sys2Proof/Config.lean ====
section
/-! DEFINITION. What an implementation fixes (spec 00_scope.md rules R2 and R8) and the values the spec leaves free
(93_implementation_defined.md part 1, treatment "any value").

The parameters are plain data. The machine state carries one `Config` that no step changes, so that a statement over
all states is a statement over all parameter values, as rule R8 asks ("a claim must hold for every value or name the
value it assumes"). -/

namespace Sys2Proof

/-- The cores of Table 1 (rule R2). -/
inductive CoreKind where
  | e200z3
  | e200z6
  deriving DecidableEq, Repr

/-- The devices of Table 1 (rule R2). -/
inductive Device where
  | mpc5533
  | mpc5534
  | mpc5554
  | mpc5553
  | mpc5565
  | mpc5566
  | mpc5567
  deriving DecidableEq, Repr

/-- Column "Core" of Table 1 (rule R2). -/
def Device.core : Device → CoreKind
  | .mpc5533 => .e200z3
  | .mpc5534 => .e200z3
  | .mpc5554 => .e200z6
  | .mpc5553 => .e200z6
  | .mpc5565 => .e200z6
  | .mpc5566 => .e200z6
  | .mpc5567 => .e200z6

/-- Column "VLE support" of Table 1 (rule R2). -/
def Device.vleSupport : Device → Bool
  | .mpc5533 => true
  | .mpc5534 => true
  | .mpc5554 => false
  | .mpc5553 => false
  | .mpc5565 => true
  | .mpc5566 => true
  | .mpc5567 => true

/-- Column "Additional SPE instructions" of Table 1 (rule R2): the parameter `HAS_ADDITIONAL_SPE` of rule R8. -/
def Device.hasAdditionalSpe : Device → Bool
  | .mpc5533 => true
  | .mpc5534 => true
  | .mpc5554 => false
  | .mpc5553 => false
  | .mpc5565 => true
  | .mpc5566 => true
  | .mpc5567 => true

/-- The OPEN parameter `PRODUCT_ROUNDING` (rules R8, R110; decision D7). -/
inductive ProductRounding where
  | exact
  | single
  deriving DecidableEq, Repr

/-- The two readings of `OVERFLOW_DETECT` and `UNDERFLOW_DETECT` (rules R8, R115, R116; decisions D11, D12). -/
inductive DetectPoint where
  | beforeRounding
  | afterRounding
  deriving DecidableEq, Repr

/-- The parameter `INSN_BYTE_ORDER` (rules R8, R52; decision D2). -/
inductive ByteOrder where
  | bigEndian
  | littleEndian
  deriving DecidableEq, Repr

/-- The OPEN parameter `TRAP_ENTRY` (rules R8, R210; decision D14). -/
inductive TrapEntryChoice where
  /-- rule R210 (b): the default, the embedded interrupt model of the e200 cores -/
  | embedded
  /-- rule R210 (a): a raise is a terminal outcome of the run -/
  | terminal
  /-- any other function that gives the two interrupts distinct vectors; `Sys2Proof.Machine.customTrapEntry` of the number, of
  which nothing else is known -/
  | custom (id : Nat)
  deriving DecidableEq, Repr

/-- The entry is a function of which nothing is known. -/
def TrapEntryChoice.isCustom : TrapEntryChoice → Bool
  | .embedded => false
  | .terminal => false
  | .custom _ => true

/-- The parameters of rule R8 that are not settled by the types of the model. -/
structure Config where
  /-- The device the core is part of; gives `HAS_ADDITIONAL_SPE` (rules R2, R3). -/
  device : Device
  /-- `PRODUCT_ROUNDING`, OPEN (decision D7). -/
  productRounding : ProductRounding
  /-- `NMADD_SPECIAL_NEGATED` (decision D8). -/
  nmaddSpecialNegated : Bool
  /-- `SCALAR_FINV_INCLUDES_RD` (decision D9). -/
  scalarFinvIncludesRd : Bool
  /-- `STATUS_BITS_ASSIGNED` (decision D10). -/
  statusBitsAssigned : Bool
  /-- `OVERFLOW_DETECT` (decision D11). -/
  overflowDetect : DetectPoint
  /-- `UNDERFLOW_DETECT` (decision D12). -/
  underflowDetect : DetectPoint
  /-- `SPE_ENABLE_REQUIRED`, OPEN (decision D15): whether the four vector instructions need `MSR[SPE]`. -/
  speEnableVector : Bool
  /-- `SPE_ENABLE_REQUIRED`, OPEN (decision D15): whether the four scalar instructions need `MSR[SPE]`. -/
  speEnableScalar : Bool
  /-- `TRAP_ENTRY`, OPEN (decision D14). -/
  trapEntry : TrapEntryChoice
  /-- `INSN_BYTE_ORDER` (decision D2). -/
  insnByteOrder : ByteOrder
  deriving DecidableEq, Repr

/-- The values of rule R8's table. DESIGN CHOICE (log 2): the device, `PRODUCT_ROUNDING = exact`, "no SPE enable is
required" and the choice of `TRAP_ENTRY` are the model's for the state after reset only; the spec leaves them OPEN. -/
def Config.default : Config where
  device := .mpc5567
  productRounding := .exact
  nmaddSpecialNegated := false
  scalarFinvIncludesRd := false
  statusBitsAssigned := true
  overflowDetect := .afterRounding
  underflowDetect := .beforeRounding
  speEnableVector := false
  speEnableScalar := false
  trapEntry := .embedded
  insnByteOrder := .bigEndian

/-- The 32-bit words of free bits that one execution of an instruction can draw. -/
inductive FreeSite where
  /-- the SPEFSCR bits that hold `any` value after the instruction (rules R34, R123) -/
  | spefscr
  /-- a high result element whose value the spec does not state (log 8) -/
  | highResult
  /-- a low result element whose value the spec does not state (log 8) -/
  | lowResult
  deriving DecidableEq, Repr

/-- FREE VALUE (log 7). The bits the `n`-th executed instruction draws at a site: nothing constrains them, so what is
proved holds whatever they are. -/
opaque Config.free : FreeSite → Nat → Word

/-- The three words one execution draws. -/
structure FreeDraw where
  spefscr : Word
  high : Word
  low : Word
  deriving DecidableEq, Repr

/-- The draw of the `n`-th executed instruction. -/
def Config.draw (n : Nat) : FreeDraw where
  spefscr := Config.free .spefscr n
  high := Config.free .highResult n
  low := Config.free .lowResult n

end Sys2Proof
end

