-- ==== Sys2Proof/Machine/Operands.lean ====
section
/-! DEFINITION. Elements of a register and the single-precision format of an element (spec 00_scope.md rules R10 to R14).
Bit `i` of the spec's numbering of a 32-bit element is bit `31 - i` of the `Word`; bits 0:31 of a 64-bit register are its
upper word. -/

namespace Sys2Proof.Machine

/-- The high element, bits 0:31 (rule R11). -/
def highElement (v : DWord) : Word := v.extractLsb' 32 32

/-- The low element, bits 32:63 (rule R11). -/
def lowElement (v : DWord) : Word := v.extractLsb' 0 32

/-- `H || L`: the register whose elements are given (rule R9). -/
def joinElements (h l : Word) : DWord := h ++ l

/-- `GPR[i][32:63] <- l`: bits 0:31 keep their value (rule R15). -/
def replaceLow (v : DWord) (l : Word) : DWord := joinElements (highElement v) l

/-- `S(x)`, the sign (rule R12). -/
def signOf (x : Word) : Bool := x.getLsbD 31

/-- `E(x)`, the biased exponent, 0 to 255 (rule R12). -/
def expOf (x : Word) : Nat := (x.extractLsb' 23 8).toNat

/-- `F(x)`, the fraction, 23 bits (rule R12). -/
def fracOf (x : Word) : Nat := (x.extractLsb' 0 23).toNat

/-- Class "zero" (rule R12). -/
def isZero (x : Word) : Bool := expOf x == 0 && fracOf x == 0

/-- Class "denormalized" (rule R12). -/
def isDenorm (x : Word) : Bool := expOf x == 0 && fracOf x != 0

/-- Class "infinity or NaN", which no rule tells apart (rule R12). -/
def isInfNaN (x : Word) : Bool := expOf x == 255

/-- Class "normalized" (rule R12). -/
def isNorm (x : Word) : Bool := 1 ≤ expOf x && expOf x ≤ 254

/-- `bad(x)`: the operand classes that are an input error (rule R104). -/
def isBad (x : Word) : Bool := isDenorm x || isInfNaN x

/-- `pmax`, the largest positive normalized single (rule R13). -/
def pmax : Word := 0x7F7FFFFF#32

/-- `nmax`, the same magnitude, negative (rule R13). -/
def nmax : Word := 0xFF7FFFFF#32

/-- The zero of a sign (rule R13: `+0 = 0x00000000`, `-0 = 0x80000000`). -/
def zeroOf (negative : Bool) : Word := if negative then 0x80000000#32 else 0x00000000#32

/-- The saturated value of a sign: pmax or nmax (rule R13). -/
def saturated (negative : Bool) : Word := if negative then nmax else pmax

/-- `flipSign(x)`: bit 0 inverted, all other bits kept (rule R13). -/
def flipSign (x : Word) : Word := x ^^^ 0x80000000#32

/-- The four rounding modes (rule R14). -/
inductive RoundingMode where
  | rn
  | rz
  | rp
  | rm
  deriving DecidableEq, Repr

/-- The significand of a normalized element as an integer: `2^23 + F(x)` (rule R12). -/
def significand (x : Word) : Nat := 2 ^ 23 + fracOf x

/-- An integer of a given sign and magnitude. -/
def signedInt (negative : Bool) (magnitude : Nat) : Int := if negative then -magnitude else magnitude

/-- `val(x)` of a normalized element (rule R12) as an exact integer in units of `2^-300`:
`(-1)^S * (2^23 + F) * 2^(E-150) = (-1)^S * (2^23 + F) * 2^(E+150) * 2^-300`. -/
def fixedVal (x : Word) : Int := signedInt (signOf x) (significand x * 2 ^ (expOf x + 150))

/-- `val(a) * val(b)` in units of `2^-300`: the exact product of two normalized elements (rule R110). -/
def fixedProduct (a b : Word) : Int :=
  signedInt (signOf a ^^ signOf b) (significand a * significand b * 2 ^ (expOf a + expOf b))

end Sys2Proof.Machine
end

