-- ==== Sys2Proof/Syntax.lean ====
section
/-! DEFINITION. The eight instructions (spec 00_scope.md rule R1, 30_encoding.md rules R71, R72, R80, opcode_table.json). -/

namespace Sys2Proof

/-- The four operations of rule R100, each with a vector and a scalar mnemonic. -/
inductive Op where
  | madd
  | msub
  | nmadd
  | nmsub
  deriving DecidableEq, Repr

/-- The instructions in the order of the opcode table. Every operand list is `rD, rA, rB`, in the order of the assembler
syntax (rule R80). -/
inductive Instr where
  | evfsmadd (rD rA rB : RegNum)
  | evfsmsub (rD rA rB : RegNum)
  | evfsnmadd (rD rA rB : RegNum)
  | evfsnmsub (rD rA rB : RegNum)
  | efsmadd (rD rA rB : RegNum)
  | efsmsub (rD rA rB : RegNum)
  | efsnmadd (rD rA rB : RegNum)
  | efsnmsub (rD rA rB : RegNum)
  deriving DecidableEq, Repr

/-- The mnemonics (rule R1). -/
inductive Mnemonic where
  | evfsmadd
  | evfsmsub
  | evfsnmadd
  | evfsnmsub
  | efsmadd
  | efsmsub
  | efsnmadd
  | efsnmsub
  deriving DecidableEq, Repr

/-- Every mnemonic, in the order of Table 2 (rule R72). -/
def Mnemonic.all : List Mnemonic :=
  [.evfsmadd, .evfsmsub, .evfsnmadd, .evfsnmsub, .efsmadd, .efsmsub, .efsnmadd, .efsnmsub]

/-- The instruction a mnemonic and its three operands name. -/
def Mnemonic.instr (m : Mnemonic) (rD rA rB : RegNum) : Instr :=
  match m with
  | .evfsmadd => .evfsmadd rD rA rB
  | .evfsmsub => .evfsmsub rD rA rB
  | .evfsnmadd => .evfsnmadd rD rA rB
  | .evfsnmsub => .evfsnmsub rD rA rB
  | .efsmadd => .efsmadd rD rA rB
  | .efsmsub => .efsmsub rD rA rB
  | .efsnmadd => .efsnmadd rD rA rB
  | .efsnmsub => .efsnmsub rD rA rB

/-- The mnemonic as assembler text (rule R80: lower case, no suffix). -/
def Mnemonic.name : Mnemonic → String
  | .evfsmadd => "evfsmadd"
  | .evfsmsub => "evfsmsub"
  | .evfsnmadd => "evfsnmadd"
  | .evfsnmsub => "evfsnmsub"
  | .efsmadd => "efsmadd"
  | .efsmsub => "efsmsub"
  | .efsnmadd => "efsnmadd"
  | .efsnmsub => "efsnmsub"

/-- The mnemonic of an instruction. -/
def Instr.mnemonic : Instr → Mnemonic
  | .evfsmadd _ _ _ => .evfsmadd
  | .evfsmsub _ _ _ => .evfsmsub
  | .evfsnmadd _ _ _ => .evfsnmadd
  | .evfsnmsub _ _ _ => .evfsnmsub
  | .efsmadd _ _ _ => .efsmadd
  | .efsmsub _ _ _ => .efsmsub
  | .efsnmadd _ _ _ => .efsnmadd
  | .efsnmsub _ _ _ => .efsnmsub

/-- Operand rD: third source and destination (rule R71). -/
def Instr.rD : Instr → RegNum
  | .evfsmadd d _ _ => d
  | .evfsmsub d _ _ => d
  | .evfsnmadd d _ _ => d
  | .evfsnmsub d _ _ => d
  | .efsmadd d _ _ => d
  | .efsmsub d _ _ => d
  | .efsnmadd d _ _ => d
  | .efsnmsub d _ _ => d

/-- Operand rA: first source (rule R71). -/
def Instr.rA : Instr → RegNum
  | .evfsmadd _ a _ => a
  | .evfsmsub _ a _ => a
  | .evfsnmadd _ a _ => a
  | .evfsnmsub _ a _ => a
  | .efsmadd _ a _ => a
  | .efsmsub _ a _ => a
  | .efsnmadd _ a _ => a
  | .efsnmsub _ a _ => a

/-- Operand rB: second source (rule R71). -/
def Instr.rB : Instr → RegNum
  | .evfsmadd _ _ b => b
  | .evfsmsub _ _ b => b
  | .evfsnmadd _ _ b => b
  | .evfsnmsub _ _ b => b
  | .efsmadd _ _ b => b
  | .efsmsub _ _ b => b
  | .efsnmadd _ _ b => b
  | .efsnmsub _ _ b => b

/-- The operation of an instruction (rule R100). -/
def Instr.op : Instr → Op
  | .evfsmadd _ _ _ => .madd
  | .evfsmsub _ _ _ => .msub
  | .evfsnmadd _ _ _ => .nmadd
  | .evfsnmsub _ _ _ => .nmsub
  | .efsmadd _ _ _ => .madd
  | .efsmsub _ _ _ => .msub
  | .efsnmadd _ _ _ => .nmadd
  | .efsnmsub _ _ _ => .nmsub

/-- The four `evfs...` forms are vector instructions, the four `efs...` forms scalar ones (rule R4). -/
def Instr.isVector : Instr → Bool
  | .evfsmadd _ _ _ => true
  | .evfsmsub _ _ _ => true
  | .evfsnmadd _ _ _ => true
  | .evfsnmsub _ _ _ => true
  | .efsmadd _ _ _ => false
  | .efsmsub _ _ _ => false
  | .efsnmadd _ _ _ => false
  | .efsnmsub _ _ _ => false

end Sys2Proof
end

