-- ==== Sys2Proof/Machine/Element.lean ====
section
/-! DEFINITION. The per-element multiply-add shared by all eight instructions: the function `Elem` of spec 40_fp_common.md
rule R118, with the rules R100 to R117 it collects. Exact values are integers in units of `2^-300`, in which every
product, addend, sum and difference of normalized elements is whole. -/

namespace Sys2Proof.Machine

/-- What `Elem` returns (rule R118). -/
structure ElemResult where
  /-- invalid operation / input error (rule R104) -/
  inv : Bool
  /-- overflow (rule R115) -/
  ovf : Bool
  /-- underflow (rule R116) -/
  unf : Bool
  /-- inexact (rule R114) -/
  inx : Bool
  /-- guard bit (rule R117) -/
  g : Bool
  /-- sticky bit (rule R117) -/
  x : Bool
  /-- `Rr`, the rounded result element -/
  rounded : Word
  /-- `Rt`, the truncated result element -/
  truncated : Word
  deriving DecidableEq, Repr

/-- `base(op) = msub` (rule R101). -/
def subtracts : Op → Bool
  | .madd => false
  | .msub => true
  | .nmadd => false
  | .nmsub => true

/-- `neg(op)` (rule R101). -/
def negates : Op → Bool
  | .madd => false
  | .msub => false
  | .nmadd => true
  | .nmsub => true

/-- `inv` of an element (rule R104). -/
def invalidInput (cfg : Config) (isVector : Bool) (a b d : Word) : Bool :=
  isBad a || isBad b || ((isVector || cfg.scalarFinvIncludesRd) && isBad d)

/-- `ps`, the sign of the product (rule R105). -/
def productSign (a b : Word) : Bool := signOf a ^^ signOf b

/-- A multiplicand that is zero or denormalized, so that the product is a signed zero (rule R108). -/
def zeroMultiplicand (a b : Word) : Bool := expOf a == 0 || expOf b == 0

/-- The result for a NaN or infinite multiplicand (rule R109): pmax or nmax by the product's sign, negated for `nmsub`, and
for `nmadd` only under the parameter `NMADD_SPECIAL_NEGATED`. -/
def specialProductResult (cfg : Config) (op : Op) (ps : Bool) : Word :=
  match op with
  | .madd => saturated ps
  | .msub => saturated ps
  | .nmadd => if cfg.nmaddSpecialNegated then flipSign (saturated ps) else saturated ps
  | .nmsub => flipSign (saturated ps)

/-- The result for a NaN or infinite rD element (rule R111), by `dsign` alone: saturated to the sign of `D'`, negated for a
negated operation. -/
def specialAddendResult (op : Op) (dsign : Bool) : Word :=
  let base := saturated (dsign ^^ subtracts op)
  if negates op then flipSign base else base

/-- An element whose computation ends at rule R109 or R111. -/
def endedResult (inv : Bool) (value : Word) : ElemResult where
  inv := inv
  ovf := false
  unf := false
  inx := false
  g := false
  x := false
  rounded := value
  truncated := value

/-- The decomposition of a nonzero exact value `T` by rule R114. `e = k - 300` because `T` is in units of `2^-300`; the
remainder `rem` of the rule is `remainder / 2^k` here. -/
structure Rounding where
  /-- `s`: `T < 0` -/
  sign : Bool
  /-- the integer with `2^k <= |T| < 2^(k+1)` in units of `2^-300` -/
  k : Nat
  /-- `t`, the truncated significand -/
  t : Nat
  /-- the numerator of `rem` over `2^k` -/
  remainder : Nat
  /-- `r`, the rounded significand, after a carry into the next exponent -/
  r : Nat
  /-- `k` or, after a carry, `k + 1` -/
  kr : Nat
  deriving DecidableEq, Repr

/-- Does the mode round up (rule R114)? `remainder / den` is `rem`. -/
def roundsUp (mode : RoundingMode) (sign : Bool) (t remainder den : Nat) : Bool :=
  match mode with
  | .rn => den < 2 * remainder || (2 * remainder == den && t % 2 == 1)
  | .rz => false
  | .rp => 0 < remainder && !sign
  | .rm => 0 < remainder && sign

/-- Rounding and truncation of a nonzero exact value (rule R114). -/
def roundParts (mode : RoundingMode) (T : Int) : Rounding :=
  let n := T.natAbs
  let k := n.log2
  let den := 2 ^ k
  let t := n * 2 ^ 23 / den
  let remainder := n * 2 ^ 23 % den
  let sign := decide (T < 0)
  let r := if roundsUp mode sign t remainder den then t + 1 else t
  let carry := r == 2 ^ 24
  { sign := sign
    k := k
    t := t
    remainder := remainder
    r := if carry then 2 ^ 23 else r
    kr := if carry then k + 1 else k }

/-- `e` of rule R114, the exponent of the truncated significand. -/
def Rounding.e (p : Rounding) : Int := (p.k : Int) - 300

/-- `er` of rule R114, the exponent of the rounded significand. -/
def Rounding.er (p : Rounding) : Int := (p.kr : Int) - 300

/-- `rem != 0` (rule R114). -/
def Rounding.inexact (p : Rounding) : Bool := p.remainder != 0

/-- The guard bit: `rem >= 1/2` (rule R117). -/
def Rounding.guard (p : Rounding) : Bool := 2 ^ p.k ≤ 2 * p.remainder

/-- The sticky bit: `rem - g/2 > 0` (rule R117). -/
def Rounding.sticky (p : Rounding) : Bool :=
  if p.guard then 2 ^ p.k < 2 * p.remainder else 0 < p.remainder

/-- The rounded value in units of `2^-300`. -/
def Rounding.roundedVal (p : Rounding) : Int := signedInt p.sign (p.r * 2 ^ p.kr / 2 ^ 23)

/-- The intermediate product. -/
structure Product where
  /-- the value in units of `2^-300`; 0 for the signed zero of rule R108 -/
  value : Int
  /-- the product's own rounding was inexact (`PRODUCT_ROUNDING = single` only) -/
  inexact : Bool
  deriving DecidableEq, Repr

/-- The intermediate product of rules R108 and R110, for multiplicands that are neither NaN nor infinite unless one of them
is zero or denormalized. -/
def product (cfg : Config) (mode : RoundingMode) (a b : Word) : Product :=
  if zeroMultiplicand a b then { value := 0, inexact := false }
  else
    match cfg.productRounding with
    | .exact => { value := fixedProduct a b, inexact := false }
    | .single =>
      let p := roundParts mode (fixedProduct a b)
      { value := p.roundedVal, inexact := p.inexact }

/-- `ds'`, the sign of `D'` (rule R113). -/
def addendSign (op : Op) (d : Word) : Bool := signOf d ^^ subtracts op

/-- `D'` in units of `2^-300`: rD's element, negated for a subtraction; 0 for a zero or denormalized element
(rules R112, R113). -/
def addend (op : Op) (d : Word) : Int :=
  if expOf d == 0 then 0
  else if subtracts op then -fixedVal d else fixedVal d

/-- The sign of an exactly zero sum (rule R113). -/
def zeroSumSign (mode : RoundingMode) (ps ds : Bool) : Bool :=
  if ps == ds then ps else mode == .rm

/-- The result element `s || (e + 127) || (significand - 2^23)` (rule R114). -/
def packElement (sign : Bool) (e : Int) (sig : Nat) : Word :=
  BitVec.ofBool sign ++ BitVec.ofInt 8 (e + 127) ++ BitVec.ofNat 23 (sig - 2 ^ 23)

/-- Underflow (rule R116), at the point the parameter `UNDERFLOW_DETECT` names. -/
def underflows (cfg : Config) (p : Rounding) : Bool :=
  match cfg.underflowDetect with
  | .beforeRounding => p.e < -126
  | .afterRounding => p.er < -126

/-- Overflow (rule R115), at the point the parameter `OVERFLOW_DETECT` names. -/
def overflows (cfg : Config) (p : Rounding) : Bool :=
  match cfg.overflowDetect with
  | .beforeRounding => 127 < p.e
  | .afterRounding => 127 < p.er

/-- The sign of an underflowed base result: it depends on the mode alone (rule R116). -/
def underflowSign (mode : RoundingMode) : Bool := mode == .rm

/-- The base result of a nonzero sum `T` (rules R114 to R117). Under a detection point other than the default there is one
case each in which the spec states no rounded or no truncated element; that element is the free word (log 8). -/
def nonzeroResult (cfg : Config) (mode : RoundingMode) (inv productInexact : Bool) (T : Int) (free : Word) : ElemResult :=
  let p := roundParts mode T
  if underflows cfg p then
    { inv := inv, ovf := false, unf := true, inx := false, g := false, x := false
      rounded := zeroOf (underflowSign mode), truncated := zeroOf (underflowSign mode) }
  else if overflows cfg p then
    { inv := inv, ovf := true, unf := false, inx := false, g := false, x := false
      rounded := saturated p.sign, truncated := saturated p.sign }
  else
    { inv := inv, ovf := false, unf := false
      inx := p.inexact || productInexact, g := p.guard, x := p.sticky
      rounded := if 127 < p.er then free else packElement p.sign p.er p.r
      truncated := if p.e < -126 then free else packElement p.sign p.e p.t }

/-- The base result of a zero sum (rule R113). With `PRODUCT_ROUNDING = single` the element is inexact if the product's own
rounding was (rule R118, last paragraph; 95_test_vectors.md section 2.5). -/
def zeroResult (mode : RoundingMode) (inv productInexact ps ds : Bool) : ElemResult where
  inv := inv
  ovf := false
  unf := false
  inx := productInexact
  g := false
  x := false
  rounded := zeroOf (zeroSumSign mode ps ds)
  truncated := zeroOf (zeroSumSign mode ps ds)

/-- The final negation of a negated operation (rule R101). -/
def negateIf (neg : Bool) (r : ElemResult) : ElemResult :=
  if neg then { r with rounded := flipSign r.rounded, truncated := flipSign r.truncated } else r

/-- `Elem(op, a, b, d, rm, isVector)` (rule R118). `free` is the word used where the spec states no value (log 8). -/
def elem (cfg : Config) (op : Op) (isVector : Bool) (mode : RoundingMode) (a b d free : Word) : ElemResult :=
  let inv := invalidInput cfg isVector a b d
  if !zeroMultiplicand a b && (isInfNaN a || isInfNaN b) then
    endedResult inv (specialProductResult cfg op (productSign a b))
  else if isInfNaN d then
    endedResult inv (specialAddendResult op (signOf d))
  else
    let P := product cfg mode a b
    let T := P.value + addend op d
    negateIf (negates op)
      (if T = 0 then zeroResult mode inv P.inexact (productSign a b) (addendSign op d)
       else nonzeroResult cfg mode inv P.inexact T free)

end Sys2Proof.Machine
end

