-- ==== Sys2Proof/WellFormed.lean ====
section
/-! DEFINITION. Well-formedness. An `Instr` is well formed by its type: its operands are five-bit fields and every value
0 to 31 of each is legal with every opcode (spec 30_encoding.md rules R74, R75, R78). What can be ill formed is a line of
assembler text (rule R80), whose operands are a list of plain numbers. -/

namespace Sys2Proof

/-- An instruction as written in assembler: `mnemonic rD,rA,rB` (rule R80), the register numbers not yet checked. -/
structure AsmLine where
  mnemonic : Mnemonic
  operands : List Nat
  deriving DecidableEq, Repr

/-- The syntax has exactly three operands; none is optional (rule R80). -/
def AsmLine.operandCountOk (l : AsmLine) : Bool := l.operands.length == 3

/-- Registers are `r0` to `r31` (rules R21, R80). -/
def AsmLine.registersOk (l : AsmLine) : Bool := l.operands.all (fun r => decide (r < 32))

/-- A well-formed assembler line. -/
def AsmLine.wellFormed (l : AsmLine) : Bool := l.operandCountOk && l.registersOk

/-- The instruction of a well-formed line: destination, first source, second source, the order of the fields RD, RA, RB
(rule R80). -/
def AsmLine.assemble (l : AsmLine) : Option Instr :=
  match l.operands with
  | [d, a, b] =>
    if l.registersOk then
      some (l.mnemonic.instr (BitVec.ofNat 5 d) (BitVec.ofNat 5 a) (BitVec.ofNat 5 b))
    else none
  | _ => none

/-- The assembler line of an instruction. -/
def Instr.asm (i : Instr) : AsmLine where
  mnemonic := i.mnemonic
  operands := [i.rD.toNat, i.rA.toNat, i.rB.toNat]

/-- Every instruction is well formed: no field is reserved and no field value is (rules R74, R78). Stated through its
assembler line. -/
def Instr.wellFormed (i : Instr) : Bool := i.asm.wellFormed

end Sys2Proof
end

