-- ==== Sys2Proof/Decode.lean ====
section
/-! DEFINITION. Decoding and encoding of the traditional 32-bit words (spec 30_encoding.md rules R70 to R78).
The decoder follows the match and mask columns of rule R72; the encoder joins the fields of rule R71. -/

namespace Sys2Proof

/-- The mask of rule R72: it covers OPCD and XO. -/
def decodeMask : Word := 0xFC0007FF#32

/-- Column "match" of rule R72. -/
def matchWord : Mnemonic → Word
  | .evfsmadd => 0x10000282#32
  | .evfsmsub => 0x10000283#32
  | .evfsnmadd => 0x1000028A#32
  | .evfsnmsub => 0x1000028B#32
  | .efsmadd => 0x100002C2#32
  | .efsmsub => 0x100002C3#32
  | .efsnmadd => 0x100002CA#32
  | .efsnmsub => 0x100002CB#32

/-- Field RD, bits 6:10 (rule R71). -/
def fieldRD (w : Word) : RegNum := w.extractLsb' 21 5

/-- Field RA, bits 11:15 (rule R71). -/
def fieldRA (w : Word) : RegNum := w.extractLsb' 16 5

/-- Field RB, bits 16:20 (rule R71). -/
def fieldRB (w : Word) : RegNum := w.extractLsb' 11 5

/-- Why bytes do not decode. -/
inductive DecodeError where
  /-- the word is none of the eight rows: `NotInThisSpec(w)` (rule R77) -/
  | notInThisSpec (w : Word)
  /-- fewer than four bytes were given (rule R70: there is one length, 32 bits) -/
  | tooFewBytes
  deriving DecidableEq, Repr

/-- The row of rule R72 that a word matches (rule R74). -/
def selectRow (w : Word) : Option Mnemonic :=
  let m := w &&& decodeMask
  if m = matchWord .evfsmadd then some .evfsmadd
  else if m = matchWord .evfsmsub then some .evfsmsub
  else if m = matchWord .evfsnmadd then some .evfsnmadd
  else if m = matchWord .evfsnmsub then some .evfsnmsub
  else if m = matchWord .efsmadd then some .efsmadd
  else if m = matchWord .efsmsub then some .efsmsub
  else if m = matchWord .efsnmadd then some .efsnmadd
  else if m = matchWord .efsnmsub then some .efsnmsub
  else none

/-- Decoding of a word (rule R74); everything else is rejected by name (rule R77). -/
def decodeWord (w : Word) : Except DecodeError Instr :=
  match selectRow w with
  | some m => .ok (m.instr (fieldRD w) (fieldRA w) (fieldRB w))
  | none => .error (.notInThisSpec w)

/-- The word that four bytes at ascending addresses hold (rule R52: big-endian; the other order is the other value of
the parameter `INSN_BYTE_ORDER`). -/
def wordOfBytes (order : ByteOrder) (b0 b1 b2 b3 : Byte) : Word :=
  match order with
  | .bigEndian => b0 ++ b1 ++ b2 ++ b3
  | .littleEndian => b3 ++ b2 ++ b1 ++ b0

/-- Byte `n` (0 the most significant) of a word. -/
def byteOfWord (w : Word) (n : Nat) : Byte := w.extractLsb' (24 - 8 * n) 8

/-- The four bytes of a word at ascending addresses (rule R52). -/
def bytesOfWord (order : ByteOrder) (w : Word) : List Byte :=
  match order with
  | .bigEndian => [byteOfWord w 0, byteOfWord w 1, byteOfWord w 2, byteOfWord w 3]
  | .littleEndian => [byteOfWord w 3, byteOfWord w 2, byteOfWord w 1, byteOfWord w 0]

/-- Decoding of bytes at ascending addresses: the instruction and the bytes after it (rules R52, R70, R74). -/
def decode (order : ByteOrder) (bytes : List Byte) : Except DecodeError (Instr × List Byte) :=
  match bytes with
  | b0 :: b1 :: b2 :: b3 :: rest =>
    match decodeWord (wordOfBytes order b0 b1 b2 b3) with
    | .ok i => .ok (i, rest)
    | .error e => .error e
  | _ => .error .tooFewBytes

/-- Primary opcode of all eight instructions, bits 0:5 (rule R71). -/
def opcd : BitVec 6 := 4#6

/-- Extended opcode, bits 21:31, as Table 2 prints it (rule R72). -/
def extendedOpcode : Mnemonic → BitVec 11
  | .evfsmadd => 0b01010000010#11
  | .evfsmsub => 0b01010000011#11
  | .evfsnmadd => 0b01010001010#11
  | .evfsnmsub => 0b01010001011#11
  | .efsmadd => 0b01011000010#11
  | .efsmsub => 0b01011000011#11
  | .efsnmadd => 0b01011001010#11
  | .efsnmsub => 0b01011001011#11

/-- The word of an instruction: OPCD, RD, RA, RB, XO from the most significant bit down (rule R71). -/
def encode (i : Instr) : Word :=
  opcd ++ i.rD ++ i.rA ++ i.rB ++ extendedOpcode i.mnemonic

/-- The instruction the decoder reads from a word numbered as the opcode table numbers it: the low `nbits` bits of `w`,
laid out in memory big-endian. -/
def decodeTableWord (nbits w : Nat) : Option Instr :=
  match decode .bigEndian (bytesOfWord .bigEndian (BitVec.ofNat 32 (w % 2 ^ nbits))) with
  | .ok (i, _) => some i
  | .error _ => none

end Sys2Proof
end

