-- ==== Sys2Proof/Machine/Flags.lean ====
section
/-! DEFINITION. The bits of SPEFSCR (spec 10_state.md rules R27 to R34) and of MSR and ESR (60_exceptions.md rule R210), and
the ways an instruction writes SPEFSCR bits. Every rule names a field; the positions stand in `ScrBit.number`,
`MsrBit.number` and `esrSpeNumber` alone. -/

namespace Sys2Proof.Machine

/-- Replace one bit of a register, counted from the least significant end. -/
def putBit (w : Word) (n : Nat) (b : Bool) : Word :=
  if b then w ||| (1#32 <<< n) else w &&& ~~~(1#32 <<< n)

/-- Every bit of SPEFSCR by name, in the order of rule R33. -/
inductive ScrBit where
  | sovh
  | ovh
  | fgh
  | fxh
  | finvh
  | fdbzh
  | funfh
  | fovfh
  | reserved40
  | reserved41
  | finxs
  | finvs
  | fdbzs
  | funfs
  | fovfs
  | mode
  | sov
  | ov
  | fg
  | fx
  | finv
  | fdbz
  | funf
  | fovf
  | reserved56
  | finxe
  | finve
  | fdbze
  | funfe
  | fovfe
  | frmcUpper
  | frmcLower
  deriving DecidableEq, Repr

/-- The bit number of a field in the numbering 32 to 63 of rule R33, bit 32 most significant. -/
def ScrBit.number : ScrBit → Nat
  | .sovh => 32
  | .ovh => 33
  | .fgh => 34
  | .fxh => 35
  | .finvh => 36
  | .fdbzh => 37
  | .funfh => 38
  | .fovfh => 39
  | .reserved40 => 40
  | .reserved41 => 41
  | .finxs => 42
  | .finvs => 43
  | .fdbzs => 44
  | .funfs => 45
  | .fovfs => 46
  | .mode => 47
  | .sov => 48
  | .ov => 49
  | .fg => 50
  | .fx => 51
  | .finv => 52
  | .fdbz => 53
  | .funf => 54
  | .fovf => 55
  | .reserved56 => 56
  | .finxe => 57
  | .finve => 58
  | .fdbze => 59
  | .funfe => 60
  | .fovfe => 61
  | .frmcUpper => 62
  | .frmcLower => 63

/-- Read a bit of SPEFSCR by name (rule R15: `SPEFSCR.F`). -/
def scrGet (b : ScrBit) (w : Word) : Bool := w.getLsbD (63 - b.number)

/-- Write a bit of SPEFSCR by name (rule R15: `SPEFSCR.F <- b`). -/
def scrSet (b : ScrBit) (v : Bool) (w : Word) : Word := putBit w (63 - b.number) v

/-- The rounding mode in field FRMC (rule R31). -/
def roundingMode (w : Word) : RoundingMode :=
  match scrGet .frmcUpper w, scrGet .frmcLower w with
  | false, false => .rn
  | false, true => .rz
  | true, false => .rp
  | true, true => .rm

/-- Give each listed bit the value of the same bit of a drawn word: the bit holds `any` value (rules R34, R123). -/
def scrDraw (free : Word) (bits : List ScrBit) (w : Word) : Word :=
  bits.foldl (fun acc b => scrSet b (scrGet b free) acc) w

/-- The fields that hold `any` value after each of the eight instructions (rule R34). -/
def unmentionedBits : List ScrBit :=
  [.sovh, .ovh, .fdbzh, .fdbzs, .finvs, .funfs, .fovfs, .mode, .sov, .ov, .fdbz]

/-- The high-element status bits that hold `any` value after a scalar instruction (rules R34, R175). -/
def scalarHighBits : List ScrBit := [.finvh, .fovfh, .funfh]

/-- A status bit "set appropriately" (rule R121): assigned, or, with `STATUS_BITS_ASSIGNED = false`, set when its condition
holds and kept otherwise. -/
def scrStatus (cfg : Config) (b : ScrBit) (cond : Bool) (w : Word) : Word :=
  if cfg.statusBitsAssigned || cond then scrSet b cond w else w

/-- FGH, FXH (rule R30). -/
def putHighGuard (g x : Bool) (w : Word) : Word := scrSet .fxh x (scrSet .fgh g w)

/-- FG, FX (rule R30). -/
def putLowGuard (g x : Bool) (w : Word) : Word := scrSet .fx x (scrSet .fg g w)

/-- FGH and FXH hold `any` value. -/
def drawHighGuard (free w : Word) : Word := scrDraw free [.fgh, .fxh] w

/-- FG and FX hold `any` value. -/
def drawLowGuard (free w : Word) : Word := scrDraw free [.fg, .fx] w

/-- Clear FGH and FXH, or leave them to a draw. -/
def clearHighGuardOrDraw (clear : Bool) (free w : Word) : Word :=
  if clear then putHighGuard false false w else drawHighGuard free w

/-- Clear FG and FX, or leave them to a draw. -/
def clearLowGuardOrDraw (clear : Bool) (free w : Word) : Word :=
  if clear then putLowGuard false false w else drawLowGuard free w

/-- The MSR bits that rule R210 names. -/
inductive MsrBit where
  | spe
  | we
  | ce
  | ee
  | pr
  | fp
  | me
  | fe0
  | de
  | fe1
  | is
  | ds
  deriving DecidableEq, Repr

/-- The bit number of an MSR bit, 32 to 63, bit 32 most significant. PRESUMED (log 3): the e200 layout; the spec gives
names only. -/
def MsrBit.number : MsrBit → Nat
  | .spe => 38
  | .we => 45
  | .ce => 46
  | .ee => 48
  | .pr => 49
  | .fp => 50
  | .me => 51
  | .fe0 => 52
  | .de => 54
  | .fe1 => 55
  | .is => 58
  | .ds => 59

/-- Read an MSR bit by name. -/
def msrGet (b : MsrBit) (w : Word) : Bool := w.getLsbD (63 - b.number)

/-- Clear an MSR bit by name. -/
def msrClear (b : MsrBit) (w : Word) : Word := putBit w (63 - b.number) false

/-- The MSR bits an interrupt clears (rule R210). -/
def msrClearedOnEntry : List MsrBit := [.we, .ee, .pr, .fp, .fe0, .fe1, .is, .ds, .spe]

/-- MSR after the entry of an interrupt (rule R210). -/
def msrOnEntry (w : Word) : Word := msrClearedOnEntry.foldl (fun acc b => msrClear b acc) w

/-- The bit number of `ESR[SPE]`, 32 to 63. PRESUMED (log 3): the e200 layout. -/
def esrSpeNumber : Nat := 56

/-- "ESR with bit SPE set (and the other bits cleared)" (rule R210). -/
def esrOnEntry : Word := putBit 0#32 (63 - esrSpeNumber) true

end Sys2Proof.Machine
end

