-- ==== Sys2Proof/Machine/State.lean ====
section
/-! DEFINITION. The machine state, its reset value, and the reasons a step can stop.

General registers, `pc`, SPEFSCR and instruction memory are spec 10_state.md rules R20 to R38 and 20_memory.md rule R51.
MSR, SRR0, SRR1, ESR, IVPR, IVOR33 and IVOR34 are the registers that the default `TRAP_ENTRY` of 60_exceptions.md rule
R210 reads and writes (log 5). `cfg`, `raised` and `draws` are the model's own
(log 2, log 35, log 7). -/

namespace Sys2Proof.Machine

/-- Instruction memory: a partial map from byte addresses to bytes (rule R51), as a list in the canonical form of
`Memory.wf`. An address that is not listed holds nothing, so a fetch from it is stuck. -/
abbrev Memory := List Host.Cell

/-- The canonical form: addresses strictly rising and inside the 32-bit address space (rules R8, R51). -/
abbrev Memory.wf (m : Memory) : Prop :=
  m.Pairwise (fun x y => x.1 < y.1) ∧ ∀ c ∈ m, c.1 < 2 ^ 32

/-- The cause of a floating-point data interrupt (rule R201). -/
inductive DataCause where
  | invalid
  | overflowOrUnderflow
  deriving DecidableEq, Repr

/-- The two synchronous interrupts (rule R200). -/
inductive Interrupt where
  | efpData (cause : DataCause)
  | efpRound
  deriving DecidableEq, Repr

/-- The kind of an interrupt, by which its entry differs (rule R210: `kind = EFPData` or not): the cause of a data interrupt
selects no vector and is recorded in no register but SPEFSCR (rule R201). -/
inductive InterruptKind where
  | data
  | round
  deriving DecidableEq, Repr

/-- The kind of an interrupt. -/
def Interrupt.kind : Interrupt → InterruptKind
  | .efpData _ => .data
  | .efpRound => .round

/-- The machine. -/
structure State where
  /-- The parameters of rule R8, fixed for the machine: no step changes them (log 2). -/
  cfg : Config
  /-- `GPR[0]` to `GPR[31]`, 64 bits each (rules R20, R21). -/
  gpr : Vector DWord 32
  /-- The byte address of the instruction being executed (rule R25). -/
  pc : Word
  /-- The SPE status and control register, laid out as rule R33 gives it. -/
  spefscr : Word
  /-- The machine state register (rules R210, R214). -/
  msr : Word
  /-- Saved address of an interrupt (rule R210). -/
  srr0 : Word
  /-- Saved MSR of an interrupt (rule R210). -/
  srr1 : Word
  /-- The exception syndrome register (rule R210). -/
  esr : Word
  /-- The interrupt vector prefix (rule R210). -/
  ivpr : Word
  /-- The vector offset of the floating-point data interrupt (rules R201, R210). -/
  ivor33 : Word
  /-- The vector offset of the floating-point round interrupt (rules R202, R210). -/
  ivor34 : Word
  /-- Instruction memory (rule R51). -/
  mem : Memory
  /-- The interrupt that ended the run, where `TRAP_ENTRY` is terminal: the rest of the state is then the state at the raise
  (rules R210 (a), R223 (a)). -/
  raised : Option Interrupt
  /-- How many instructions have drawn free values: the argument of `Config.draw` (log 7). -/
  draws : Nat
  deriving DecidableEq, Repr

/-- Why the machine is stuck. -/
inductive Fault where
  /-- Raised by the fetch when one of the four bytes at `pc` is not in instruction memory; `addr` is the first such
  address. Rule R51: "the agent has no step (it is stuck)". Safe. -/
  | fetchUnmapped (addr : Word)
  /-- Raised by the step when the run has ended by a raise that the parameter `TRAP_ENTRY` makes terminal. Rule R210 (a):
  "make the raise a terminal outcome of the run". Safe. -/
  | runEnded (kind : Interrupt)
  deriving DecidableEq, Repr

/-- Why a step has no meaning in the model. -/
inductive Refusal where
  /-- Raised by a refused arm of `exec`: an instruction of the table that has no meaning yet. Safe. No arm raises it. -/
  | notModelled (mnemonic : String)
  /-- Raised by the step on a word that is none of the eight rows: `NotInThisSpec(w)` of rule R77. Safe. -/
  | notInThisSpec (w : Word)
  /-- Raised by the step when `pc` is not a multiple of 4 (rule R53: "refused (no meaning), not faulted"). Safe. -/
  | misalignedPc (pc : Word)
  /-- Raised by every instruction when `SpeAvailable` does not hold (rule R214: "the model refuses the step"). Safe. -/
  | speUnavailable
  /-- Raised by every instruction on a device without the additional instructions (rules R2, R3; 93 entry U20: "refuse").
  Safe. -/
  | deviceLacksInstructions
  deriving DecidableEq, Repr

/-- The outcome of a step of this machine. -/
abbrev Result := Host.Outcome State Fault Refusal

/-- The state right after reset. The spec states no reset value for anything (rules R38, R240), so every value here is
the model's, named in log 3 (PRESUMED, the e200 family) and log 4 (DESIGN CHOICE); memory lists nothing. -/
def State.reset : State where
  cfg := Config.default
  gpr := Vector.replicate 32 0#64
  pc := 0xFFFFFFFC#32
  spefscr := 0#32
  msr := 0#32
  srr0 := 0#32
  srr1 := 0#32
  esr := 0#32
  ivpr := 0#32
  ivor33 := 0#32
  ivor34 := 0#32
  mem := []
  raised := none
  draws := 0

end Sys2Proof.Machine
end

