-- ==== Sys2Proof/Machine/Ops.lean ====
section
/-! DEFINITION. The named operations over memory and registers, the fetch, and the entry of an interrupt. -/

namespace Sys2Proof.Machine

/-- `MemRead(addr, 1)`: the byte at an address, if instruction memory holds one (rules R15, R51). -/
def Memory.read (m : Memory) (a : Word) : Option Byte :=
  match m with
  | [] => none
  | c :: rest => if c.1 = a.toNat then some c.2 else Memory.read rest a

/-- `MemWrite(addr, 1, v)`: place a byte, keeping the canonical form. No instruction in scope stores (rule R50); a program
is placed with it. -/
def Memory.write (m : Memory) (a : Word) (v : Byte) : Memory :=
  match m with
  | [] => [(a.toNat, v)]
  | c :: rest =>
    if a.toNat < c.1 then (a.toNat, v) :: c :: rest
    else if a.toNat = c.1 then (a.toNat, v) :: rest
    else c :: Memory.write rest a v

/-- Place bytes at ascending addresses, modulo the address space. -/
def Memory.writeBytes (m : Memory) (a : Word) (bytes : List Byte) : Memory :=
  match bytes with
  | [] => m
  | b :: rest => Memory.writeBytes (m.write a b) (a + 1#32) rest

/-- `GPR[i]` (rules R15, R22: register 0 is like any other). -/
def State.readGpr (s : State) (r : RegNum) : DWord := s.gpr[r.toNat]'r.isLt

/-- `GPR[i] <- v` (rules R15, R22). -/
def State.writeGpr (s : State) (r : RegNum) (v : DWord) : State :=
  { s with gpr := s.gpr.set r.toNat v r.isLt }

/-- `pc <- pc + 4` modulo `2^32` (rule R25). -/
def State.advancePc (s : State) : State := { s with pc := s.pc + 4#32 }

/-- `pc mod 4 = 0` (rule R53). -/
def pcAligned (pc : Word) : Bool := pc.toNat % 4 == 0

/-- The word at `pc` (rules R51, R52): four bytes at ascending addresses, or the first address that holds none. -/
def fetchWord (s : State) : Except Word Word :=
  match s.mem.read s.pc with
  | none => .error s.pc
  | some b0 =>
    match s.mem.read (s.pc + 1#32) with
    | none => .error (s.pc + 1#32)
    | some b1 =>
      match s.mem.read (s.pc + 2#32) with
      | none => .error (s.pc + 2#32)
      | some b2 =>
        match s.mem.read (s.pc + 3#32) with
        | none => .error (s.pc + 3#32)
        | some b3 => .ok (wordOfBytes s.cfg.insnByteOrder b0 b1 b2 b3)

/-- Place an instruction word at `pc`, in the machine's byte order (rule R52). -/
def State.placeWord (s : State) (w : Word) : State :=
  { s with mem := s.mem.writeBytes s.pc (bytesOfWord s.cfg.insnByteOrder w) }

/-- `SpeAvailable(state, mnemonic)` (rule R214): the enable bit `MSR[SPE]` is set, or the parameter does not require it for
the instruction's family. -/
def State.speAvailable (s : State) (isVector : Bool) : Bool :=
  let required := if isVector then s.cfg.speEnableVector else s.cfg.speEnableScalar
  !required || msrGet .spe s.msr

/-- `SRR0` of an interrupt (rule R210): the instruction itself for the data interrupt, the next one for the round
interrupt. -/
def savedPc (kind : InterruptKind) (pc : Word) : Word :=
  match kind with
  | .data => pc
  | .round => pc + 4#32

/-- The vector offset register of an interrupt (rules R201, R202, R210). -/
def State.vectorOffset (s : State) (kind : InterruptKind) : Word :=
  match kind with
  | .data => s.ivor33
  | .round => s.ivor34

/-- `IVPR[32:47] || IVORn[48:59] || 0b0000` (rule R210). -/
def handlerAddress (ivpr ivor : Word) : Word := ivpr.extractLsb' 16 16 ++ ivor.extractLsb' 4 12 ++ 0#4

/-- The registers that taking an interrupt can change (rule R210: "registers of the base architecture", none of them state
of the spec "outside this parameter", and `pc`). -/
structure EntryRegs where
  pc : Word
  msr : Word
  srr0 : Word
  srr1 : Word
  esr : Word
  ivpr : Word
  ivor33 : Word
  ivor34 : Word
  deriving DecidableEq, Repr, Inhabited

/-- The type of the parameter `TRAP_ENTRY` (rule R210): from the state at the raise and the kind to the registers with which
the handler starts. The rest of the state is what the raise left (rules R201, R202, R211; log 5). -/
abbrev TrapEntry := State → InterruptKind → EntryRegs

/-- Rule R211 (c), fixed "whatever `TRAP_ENTRY` is": the round interrupt "uses a vector of its own, distinct from the one
`EFPData` uses". -/
def vectorsDistinct (entry : TrapEntry) : Prop := ∀ s, (entry s .round).pc ≠ (entry s .data).pc

/-- An entry that obeys rule R211 (c), from any function: one that obeys the rule is left as it is, so every such entry is a
value of this operation (log 41). -/
def separateVectors (entry : TrapEntry) : TrapEntry := fun s kind =>
  match kind with
  | .data => entry s .data
  | .round =>
    let r := entry s .round
    if r.pc = (entry s .data).pc then { r with pc := r.pc + 4#32 } else r

/-- FREE VALUE (log 41). The functions the entries `TrapEntryChoice.custom` are made of: nothing constrains them. -/
opaque openTrapEntry : Nat → TrapEntry

/-- The entry `TrapEntryChoice.custom n` names: any function that obeys rule R211 (c). What is proved of it holds of every such
`TRAP_ENTRY`; a claim about one entry takes `openTrapEntry n = entry` as a premise. -/
def customTrapEntry (n : Nat) : TrapEntry := separateVectors (openTrapEntry n)

/-- The default `TrapEntry(kind)` of rule R210 (log 5). -/
def embeddedTrapEntry : TrapEntry := fun s kind =>
  { pc := handlerAddress s.ivpr (s.vectorOffset kind)
    msr := msrOnEntry s.msr
    srr0 := savedPc kind s.pc
    srr1 := s.msr
    esr := esrOnEntry
    ivpr := s.ivpr
    ivor33 := s.ivor33
    ivor34 := s.ivor34 }

/-- Enter a handler with given registers. -/
def State.enter (s : State) (r : EntryRegs) : State :=
  { s with
    pc := r.pc
    msr := r.msr
    srr0 := r.srr0
    srr1 := r.srr1
    esr := r.esr
    ivpr := r.ivpr
    ivor33 := r.ivor33
    ivor34 := r.ivor34 }

/-- `raise kind` (rules R200 to R202) on the state at the raise: the parameter `TRAP_ENTRY` of rule R210. -/
def State.takeInterrupt (s : State) (kind : Interrupt) : State :=
  match s.cfg.trapEntry with
  | .embedded => s.enter (embeddedTrapEntry s kind.kind)
  | .terminal => { s with raised := some kind }
  | .custom n => s.enter (customTrapEntry n s kind.kind)

/-- The return from an interrupt under the default of rule R210: `MSR <- SRR1; pc <- SRR0[32:61] || 0b00` (rule R212). No
instruction of the spec performs it: `rfi` is a word outside rule R72 and is refused. -/
def State.returnFromInterrupt (s : State) : State :=
  { s with msr := s.srr1, pc := s.srr0.extractLsb' 2 30 ++ 0#2 }

/-- What one execution does to rD and SPEFSCR, and how it ends (rules R154, R175, R200). -/
structure Effect where
  /-- the value rD receives; none where "the destination register is not updated" (rule R201) -/
  dest : Option DWord
  /-- SPEFSCR at the end of the instruction -/
  spefscr : Word
  /-- the interrupt the instruction raises; none for normal completion -/
  raises : Option Interrupt
  deriving DecidableEq, Repr

/-- The state at the raise, or before `pc` advances (rules R201, R202): rD and SPEFSCR written, one draw used. -/
def State.applyEffect (s : State) (rD : RegNum) (e : Effect) : State :=
  let written := match e.dest with
    | none => s
    | some v => s.writeGpr rD v
  { written with spefscr := e.spefscr, draws := s.draws + 1 }

/-- The end of an instruction (rules R25, R200): the next instruction, or the entry of the interrupt it raised. -/
def State.finish (s : State) (rD : RegNum) (e : Effect) : State :=
  match e.raises with
  | none => (s.applyEffect rD e).advancePc
  | some kind => (s.applyEffect rD e).takeInterrupt kind

/-- The checks that stand before an instruction's own rules (rules R3, R205, R214): the device has the instructions and the
SPE is available. -/
def State.whenExecutable (s : State) (isVector : Bool) (t : State) : Result :=
  if s.cfg.device.hasAdditionalSpe = false then .refused .deviceLacksInstructions
  else if s.speAvailable isVector = false then .refused .speUnavailable
  else .next t

end Sys2Proof.Machine
end

