-- ==== Sys2Proof/Machine/Scalar.lean ====
section
/-! DEFINITION. The four scalar instructions (spec 42_scalar_fp_multiply_add.md). -/

namespace Sys2Proof.Machine

/-- Stages 1 to 4 of `ScaStep` (rule R175) for the element result `l`: `f` is SPEFSCR before the instruction, `free` the
drawn word for its `any` bits, `D` the old value of rD, whose high element is kept (rule R170). -/
def scaStages (cfg : Config) (free f : Word) (D : DWord) (l : ElemResult) : Effect :=
  let f1 := scrStatus cfg .finv l.inv (scrDraw free (unmentionedBits ++ scalarHighBits) f)
  let invalidTaken := scrGet .finve f && l.inv
  let f2 := scrStatus cfg .funf l.unf (scrStatus cfg .fovf l.ovf f1)
  let signalled := l.inv || l.ovf || l.unf
  let hit := (scrGet .fovfe f && l.ovf) || (scrGet .funfe f && l.unf)
  let ev := l.inx || l.ovf || l.unf
  let f3 := if ev then scrSet .finxs true f2 else f2
  if invalidTaken then
    { dest := none
      spefscr := putLowGuard false false (putHighGuard false false f1)
      raises := some (.efpData .invalid) }
  else if hit then
    { dest := none
      spefscr := putLowGuard false false (putHighGuard false false f2)
      raises := some (.efpData .overflowOrUnderflow) }
  else if ev && scrGet .finxe f then
    { dest := some (replaceLow D l.truncated)
      spefscr := putLowGuard (!signalled && l.g) (!signalled && l.x) (putHighGuard false false f3)
      raises := some .efpRound }
  else
    { dest := some (replaceLow D l.rounded)
      spefscr := clearLowGuardOrDraw signalled free (clearHighGuardOrDraw signalled free f3)
      raises := none }

/-- The result of the low element (rule R175). -/
def scaLow (cfg : Config) (op : Op) (f : Word) (draw : FreeDraw) (A B D : DWord) : ElemResult :=
  elem cfg op false (roundingMode f) (lowElement A) (lowElement B) (lowElement D) draw.low

/-- `ScaStep(op, RD, RA, RB)` on operand values (rule R175). -/
def scaEffect (cfg : Config) (op : Op) (f : Word) (draw : FreeDraw) (A B D : DWord) : Effect :=
  scaStages cfg draw.spefscr f D (scaLow cfg op f draw A B D)

/-- `ScaStep(op, RD, RA, RB)` (rule R175): all reads first (rule R23). -/
def scaStep (op : Op) (rD rA rB : RegNum) (s : State) : Result :=
  s.whenExecutable false
    (s.finish rD (scaEffect s.cfg op s.spefscr (Config.draw s.draws) (s.readGpr rA) (s.readGpr rB) (s.readGpr rD)))

/-- `efsmadd rD,rA,rB` (rule R171). -/
def execEfsmadd (rD rA rB : RegNum) (s : State) : Result := scaStep .madd rD rA rB s

/-- `efsmsub rD,rA,rB` (rule R172). -/
def execEfsmsub (rD rA rB : RegNum) (s : State) : Result := scaStep .msub rD rA rB s

/-- `efsnmadd rD,rA,rB` (rule R173). -/
def execEfsnmadd (rD rA rB : RegNum) (s : State) : Result := scaStep .nmadd rD rA rB s

/-- `efsnmsub rD,rA,rB` (rule R174). -/
def execEfsnmsub (rD rA rB : RegNum) (s : State) : Result := scaStep .nmsub rD rA rB s

end Sys2Proof.Machine
end

