-- ==== Sys2Proof/Machine/Vector.lean ====
section
/-! DEFINITION. The four vector instructions (spec 41_vector_fp_multiply_add.md). -/

namespace Sys2Proof.Machine

/-- Stages 1 to 4 of `VecStep` (rule R154) for element results `h` and `l`: `f` is SPEFSCR before the instruction, `free`
the drawn word for its `any` bits. -/
def vecStages (cfg : Config) (free f : Word) (h l : ElemResult) : Effect :=
  let f1 := scrStatus cfg .finv l.inv (scrStatus cfg .finvh h.inv (scrDraw free unmentionedBits f))
  let invalidTaken := scrGet .finve f && (h.inv || l.inv)
  let f2 := scrStatus cfg .funf l.unf (scrStatus cfg .funfh h.unf
    (scrStatus cfg .fovf l.ovf (scrStatus cfg .fovfh h.ovf f1)))
  let hitH := (scrGet .fovfe f && h.ovf) || (scrGet .funfe f && h.unf)
  let hitL := (scrGet .fovfe f && l.ovf) || (scrGet .funfe f && l.unf)
  let ev := h.inx || l.inx || h.ovf || l.ovf || h.unf || l.unf
  let f3 := if ev then scrSet .finxs true f2 else f2
  if invalidTaken then
    { dest := none
      spefscr := clearLowGuardOrDraw l.inv free (clearHighGuardOrDraw h.inv free f1)
      raises := some (.efpData .invalid) }
  else if hitH || hitL then
    { dest := none
      spefscr := clearLowGuardOrDraw (l.inv || hitL) free (clearHighGuardOrDraw (h.inv || hitH) free f2)
      raises := some (.efpData .overflowOrUnderflow) }
  else if ev && scrGet .finxe f then
    { dest := some (joinElements h.truncated l.truncated)
      spefscr := putLowGuard (!l.inv && l.g) (!l.inv && l.x) (putHighGuard (!h.inv && h.g) (!h.inv && h.x) f3)
      raises := some .efpRound }
  else
    { dest := some (joinElements h.rounded l.rounded)
      spefscr := clearLowGuardOrDraw l.inv free (clearHighGuardOrDraw h.inv free f3)
      raises := none }

/-- The result of the high element (rule R154). -/
def vecHigh (cfg : Config) (op : Op) (f : Word) (draw : FreeDraw) (A B D : DWord) : ElemResult :=
  elem cfg op true (roundingMode f) (highElement A) (highElement B) (highElement D) draw.high

/-- The result of the low element (rule R154). -/
def vecLow (cfg : Config) (op : Op) (f : Word) (draw : FreeDraw) (A B D : DWord) : ElemResult :=
  elem cfg op true (roundingMode f) (lowElement A) (lowElement B) (lowElement D) draw.low

/-- `VecStep(op, RD, RA, RB)` on operand values (rule R154). -/
def vecEffect (cfg : Config) (op : Op) (f : Word) (draw : FreeDraw) (A B D : DWord) : Effect :=
  vecStages cfg draw.spefscr f (vecHigh cfg op f draw A B D) (vecLow cfg op f draw A B D)

/-- `VecStep(op, RD, RA, RB)` (rule R154): all reads first (rule R23). -/
def vecStep (op : Op) (rD rA rB : RegNum) (s : State) : Result :=
  s.whenExecutable true
    (s.finish rD (vecEffect s.cfg op s.spefscr (Config.draw s.draws) (s.readGpr rA) (s.readGpr rB) (s.readGpr rD)))

/-- `evfsmadd rD,rA,rB` (rule R150). -/
def execEvfsmadd (rD rA rB : RegNum) (s : State) : Result := vecStep .madd rD rA rB s

/-- `evfsmsub rD,rA,rB` (rule R151). -/
def execEvfsmsub (rD rA rB : RegNum) (s : State) : Result := vecStep .msub rD rA rB s

/-- `evfsnmadd rD,rA,rB` (rule R152). -/
def execEvfsnmadd (rD rA rB : RegNum) (s : State) : Result := vecStep .nmadd rD rA rB s

/-- `evfsnmsub rD,rA,rB` (rule R153). -/
def execEvfsnmsub (rD rA rB : RegNum) (s : State) : Result := vecStep .nmsub rD rA rB s

end Sys2Proof.Machine
end

