-- ==== Sys2Proof/Machine/Dispatch.lean ====
section
/-! DEFINITION. Dispatch: one arm per constructor of `Instr`, each one direct call of its meaning. -/

namespace Sys2Proof.Machine

def exec (i : Instr) (s : State) : Host.Outcome State Fault Refusal :=
  match i with
  | .evfsmadd rD rA rB => Sys2Proof.Machine.execEvfsmadd rD rA rB s
  | .evfsmsub rD rA rB => Sys2Proof.Machine.execEvfsmsub rD rA rB s
  | .evfsnmadd rD rA rB => Sys2Proof.Machine.execEvfsnmadd rD rA rB s
  | .evfsnmsub rD rA rB => Sys2Proof.Machine.execEvfsnmsub rD rA rB s
  | .efsmadd rD rA rB => Sys2Proof.Machine.execEfsmadd rD rA rB s
  | .efsmsub rD rA rB => Sys2Proof.Machine.execEfsmsub rD rA rB s
  | .efsnmadd rD rA rB => Sys2Proof.Machine.execEfsnmadd rD rA rB s
  | .efsnmsub rD rA rB => Sys2Proof.Machine.execEfsnmsub rD rA rB s

end Sys2Proof.Machine
end

