-- ==== Sys2Proof/Machine/Step.lean ====
section
/-! DEFINITION. One step: fetch, decode, execute (spec 20_memory.md rules R51 to R53, R56; 30_encoding.md rule R74). -/

namespace Sys2Proof.Machine

/-- One step of the only agent, the core (rule R220): a run that a terminal raise has ended goes no further (rules R210 (a),
R223), a misaligned `pc` is refused (rule R53), a fetch from memory that is
not there is stuck (rule R51), a word outside rule R72 is refused (rule R77), and every other word is executed. -/
def step (s : State) : Host.Outcome State Fault Refusal :=
  match s.raised with
  | some kind => .fault (.runEnded kind)
  | none =>
    if pcAligned s.pc = false then .refused (.misalignedPc s.pc)
    else
      match fetchWord s with
      | .error a => .fault (.fetchUnmapped a)
      | .ok w =>
        match decodeWord w with
        | .ok i => exec i s
        | .error _ => .refused (.notInThisSpec w)

/-- The state with an instruction, numbered as the opcode table numbers it, at `pc`: the launch supplies instruction memory
(rule R54, log 6). Bits above `nbits` are zero. It begins a run, so no raise has ended it; nothing else changes. -/
def State.withFetchWord (s : State) (nbits w : Nat) : State :=
  { s.placeWord (BitVec.ofNat 32 (w % 2 ^ nbits)) with raised := none }

end Sys2Proof.Machine
end

