-- ==== Sys2Proof/Safety.lean ====
section
/-! DEFINITION. What claims about runs use: the launch of a program, the end of a run, the invariant of the machine, and the
rational value of an element (spec 20_memory.md rule R54, 60_exceptions.md rule R223, 00_scope.md rule R12). -/

namespace Sys2Proof.Machine

/-- A launch: the start address and the bytes of the program at ascending addresses (rules R54, R241 item 5). Registers and
parameters are those of the state it is applied to. -/
def State.launch (s : State) (start : Word) (program : List Byte) : State :=
  { s with pc := start, mem := s.mem.writeBytes start program, raised := none }

/-- How a run ends (rule R223). -/
inductive RunEnd where
  /-- an instruction raised and `TRAP_ENTRY` is terminal; `s` is the state at the raise -/
  | raised (kind : Interrupt) (s : State)
  /-- `pc` reached the end address of the launch: the only normal end -/
  | normalEnd (s : State)
  /-- the fetch was outside instruction memory -/
  | stuck (r : Fault)
  /-- the model has no meaning for the step -/
  | refused (r : Refusal)
  /-- the run did not end in the steps allowed -/
  | unfinished (s : State)
  deriving DecidableEq, Repr

/-- Run at most a number of steps, up to the end address of the launch (rule R223). -/
def runUntil (endPc : Word) : Nat → State → RunEnd
  | 0, s =>
    match s.raised with
    | some kind => .raised kind s
    | none => if s.pc = endPc then .normalEnd s else .unfinished s
  | n + 1, s =>
    match s.raised with
    | some kind => .raised kind s
    | none =>
      if s.pc = endPc then .normalEnd s
      else
        match step s with
        | .next t => runUntil endPc n t
        | .fault r => .stuck r
        | .refused r => .refused r

/-- The handlers that an unknown entry goes to are at multiples of 4, as rule R53 asks of every instruction address. The
default and the terminal entry need no such premise. -/
def State.handlersAligned (s : State) : Prop :=
  ∀ n, s.cfg.trapEntry = .custom n → ∀ u kind, pcAligned (customTrapEntry n u kind).pc = true

/-- The invariant of the machine: instruction memory is in its canonical form, `pc` is a multiple of 4 (rule R53), and an
unknown `TRAP_ENTRY` keeps it so. -/
def State.inv (s : State) : Prop := s.mem.wf ∧ pcAligned s.pc = true ∧ s.handlersAligned

/-- Both checks that stand before an instruction's own rules hold (rules R2, R214). -/
abbrev State.executable (s : State) (isVector : Bool) : Prop :=
  s.cfg.device.hasAdditionalSpe = true ∧ s.speAvailable isVector = true

/-- A bit of the state's SPEFSCR by name. -/
def State.scr (s : State) (b : ScrBit) : Bool := scrGet b s.spefscr

/-- The high element's result of a vector instruction in a state (rule R154): the old registers, the current rounding mode,
the state's parameters and its next draw. -/
def State.highResult (s : State) (i : Instr) : ElemResult :=
  elem s.cfg i.op true (roundingMode s.spefscr) (highElement (s.readGpr i.rA)) (highElement (s.readGpr i.rB))
    (highElement (s.readGpr i.rD)) (Config.draw s.draws).high

/-- The low element's result of an instruction in a state (rules R154, R175). -/
def State.lowResult (s : State) (i : Instr) : ElemResult :=
  elem s.cfg i.op i.isVector (roundingMode s.spefscr) (lowElement (s.readGpr i.rA)) (lowElement (s.readGpr i.rB))
    (lowElement (s.readGpr i.rD)) (Config.draw s.draws).low

/-- The elements in play: both for a vector instruction, the low one for a scalar instruction (rules R155, R170). -/
def State.elements (s : State) (i : Instr) : List ElemResult :=
  if i.isVector then [s.highResult i, s.lowResult i] else [s.lowResult i]

/-- What an instruction does to rD and SPEFSCR in a state and how it ends, before the entry layer of rule R210: the outcome
layer of rules R200 to R203. -/
def State.effect (s : State) (i : Instr) : Effect :=
  if i.isVector then vecStages s.cfg (Config.draw s.draws).spefscr s.spefscr (s.highResult i) (s.lowResult i)
  else scaStages s.cfg (Config.draw s.draws).spefscr s.spefscr (s.readGpr i.rD) (s.lowResult i)

/-- Row 1 of the table of causes (rule R203): some element has `inv` and FINVE = 1. -/
abbrev State.invalidHit (s : State) (i : Instr) : Prop :=
  s.scr .finve = true ∧ ∃ r ∈ s.elements i, r.inv = true

/-- The condition of row 2 of the table of causes (rule R203), apart from row 1: some element has `ovf` with FOVFE = 1, or
`unf` with FUNFE = 1. -/
abbrev State.rangeHit (s : State) (i : Instr) : Prop :=
  ∃ r ∈ s.elements i, (s.scr .fovfe = true ∧ r.ovf = true) ∨ (s.scr .funfe = true ∧ r.unf = true)

/-- The event of this instruction that sets FINXS (rule R124): some element is inexact, overflowed or underflowed. -/
abbrev State.inexactEvent (s : State) (i : Instr) : Prop :=
  ∃ r ∈ s.elements i, r.inx = true ∨ r.ovf = true ∨ r.unf = true

/-- The condition of row 3 of the table of causes (rule R203), apart from rows 1 and 2. -/
abbrev State.roundHit (s : State) (i : Instr) : Prop :=
  s.scr .finxe = true ∧ s.inexactEvent i

/-- No interrupt: none of the three rows of rule R203 applies. -/
abbrev State.noInterrupt (s : State) (i : Instr) : Prop :=
  ¬ s.invalidHit i ∧ ¬ s.rangeHit i ∧ ¬ s.roundHit i

/-- What a status bit holds after it is "set appropriately" (rule R121), for both values of `STATUS_BITS_ASSIGNED`. -/
def statusAfter (cfg : Config) (cond old : Bool) : Bool :=
  if cfg.statusBitsAssigned then cond else cond || old

/-- `val(x)` of rule R12 as a rational number; a zero or denormalized element counts as 0 (rules R108, R112). -/
def elemVal (x : Word) : ℚ :=
  if expOf x = 0 then 0
  else (if signOf x then -1 else 1) * ((2 : ℚ) ^ ((expOf x : ℤ) - 127) * (1 + (fracOf x : ℚ) / 2 ^ 23))

/-- `T = P + D'` (rule R113) as a rational number, for an rD element that is neither NaN nor infinite. -/
def sumWith (op : Op) (P : ℚ) (d : Word) : ℚ := P + (if subtracts op then -elemVal d else elemVal d)

/-- `v` is the nonzero `T` rounded to a 24-bit significand in a mode, with unbounded exponent (rules R14, R114): `v` is a
multiple `m` of the unit in the last place at the exponent `e` of `T`. -/
def roundedTo24 (mode : RoundingMode) (T v : ℚ) : Prop :=
  ∃ e m : ℤ, (2 : ℚ) ^ e ≤ |T| ∧ |T| < (2 : ℚ) ^ (e + 1) ∧ v = m * (2 : ℚ) ^ (e - 23) ∧
    (match mode with
      | .rn => |v - T| ≤ (2 : ℚ) ^ (e - 24) ∧ (|v - T| = (2 : ℚ) ^ (e - 24) → m % 2 = 0)
      | .rz => 0 ≤ v * T ∧ |v| ≤ |T| ∧ |T| < |v| + (2 : ℚ) ^ (e - 23)
      | .rp => T ≤ v ∧ v < T + (2 : ℚ) ^ (e - 23)
      | .rm => v ≤ T ∧ T - (2 : ℚ) ^ (e - 23) < v)

/-- `P` is the intermediate product of rules R108 and R110 as a rational number, under the parameter `PRODUCT_ROUNDING`. -/
def isProduct (cfg : Config) (mode : RoundingMode) (a b : Word) (P : ℚ) : Prop :=
  match cfg.productRounding with
  | .exact => P = elemVal a * elemVal b
  | .single => if elemVal a * elemVal b = 0 then P = 0 else roundedTo24 mode (elemVal a * elemVal b) P

/-- The base result of a result element: rule R101's final negation undone. -/
def baseOf (op : Op) (x : Word) : Word := if negates op then flipSign x else x

end Sys2Proof.Machine
end

