-- ==== Sys2Proof/Certificates/Slice0/Obligations.lean ====
section
/-! DEFINITION. The statements for the provers. Each docstring names the rules of spec/ it rests on; where a clause rests on
a choice of the model or on an inference the spec marks as its own, the docstring names the log entry or the decision. -/

open Sys2Proof Sys2Proof.Machine

/-! ## Encoding -/

/-- Rules R71, R72, R74, R52: decoding the encoding of any instruction gives it back, from the word and from the bytes in
either byte order, and leaves the bytes after it. -/
def Obligations.DecodeOfEncodeIsIdentity : Prop :=
  ∀ (i : Instr) (order : ByteOrder) (rest : List Byte),
    decodeWord (encode i) = .ok i ∧ decode order (bytesOfWord order (encode i) ++ rest) = .ok (i, rest)

/-- Rules R71, R72, R74: a word that decodes is the encoding of what it decodes to, so no two words mean the same. -/
def Obligations.EncodeOfDecodeIsTheWord : Prop :=
  ∀ (w : Word) (i : Instr), decodeWord w = .ok i → encode i = w

/-- Rule R71: the value of an instruction's word as the sum of its fields, and its fields by division. -/
def Obligations.WordValueIsSumOfFields : Prop :=
  ∀ (w : Word) (i : Instr), decodeWord w = .ok i →
    w.toNat = 4 * 2 ^ 26 + i.rD.toNat * 2 ^ 21 + i.rA.toNat * 2 ^ 16 + i.rB.toNat * 2 ^ 11
        + (extendedOpcode i.mnemonic).toNat ∧
      w.toNat / 2 ^ 26 = 4 ∧
      w.toNat / 2 ^ 21 % 32 = i.rD.toNat ∧
      w.toNat / 2 ^ 16 % 32 = i.rA.toNat ∧
      w.toNat / 2 ^ 11 % 32 = i.rB.toNat ∧
      w.toNat % 2 ^ 11 = (extendedOpcode i.mnemonic).toNat

/-- Rule R72: the extended opcode, match and mask of each of the eight rows. -/
def Obligations.OpcodeTableSelectsByMatchAndMask : Prop :=
  ∀ p ∈ [(Mnemonic.evfsmadd, 0x282, 0x10000282#32), (.evfsmsub, 0x283, 0x10000283#32),
      (.evfsnmadd, 0x28A, 0x1000028A#32), (.evfsnmsub, 0x28B, 0x1000028B#32),
      (.efsmadd, 0x2C2, 0x100002C2#32), (.efsmsub, 0x2C3, 0x100002C3#32),
      (.efsnmadd, 0x2CA, 0x100002CA#32), (.efsnmsub, 0x2CB, 0x100002CB#32)],
    (∀ rD rA rB : RegNum, (encode (p.1.instr rD rA rB)).toNat % 2 ^ 11 = p.2.1 ∧
        (encode (p.1.instr rD rA rB)).toNat / 2 ^ 26 = 4) ∧
      ∀ w : Word, w &&& 0xFC0007FF#32 = p.2.2 ↔ ∃ rD rA rB, decodeWord w = .ok (p.1.instr rD rA rB)

/-- Rule R74: a word whose masked value is a row's match decodes to that row's instruction with the register fields of rule
R71; any other word is `NotInThisSpec`; every register number is legal with every row; and an instruction is four bytes
long, whatever its bits and whatever follows it. -/
def Obligations.DecodingFollowsMatchAndFields : Prop :=
  (∀ (w : Word) (m : Mnemonic), w &&& 0xFC0007FF#32 = matchWord m →
    ∃ i, decodeWord w = .ok i ∧ i.mnemonic = m ∧ i.rD.toNat = w.toNat / 2 ^ 21 % 32 ∧
      i.rA.toNat = w.toNat / 2 ^ 16 % 32 ∧ i.rB.toNat = w.toNat / 2 ^ 11 % 32) ∧
  (∀ w : Word, (∀ m, w &&& 0xFC0007FF#32 ≠ matchWord m) → decodeWord w = .error (.notInThisSpec w)) ∧
  (∀ (m : Mnemonic) (rD rA rB : RegNum), ∃ w, decodeWord w = .ok (m.instr rD rA rB)) ∧
  ∀ (order : ByteOrder) (bytes rest : List Byte) (i : Instr), decode order bytes = .ok (i, rest) →
    ∃ b0 b1 b2 b3, bytes = b0 :: b1 :: b2 :: b3 :: rest ∧ decodeWord (wordOfBytes order b0 b1 b2 b3) = .ok i

/-- Rule R77 (decision D22) and conflict C1: the neighbouring extended opcodes under primary opcode 4, the encoding figures'
value 0x280 among them, and every other primary opcode are `NotInThisSpec`, whatever the register fields hold. -/
def Obligations.NeighbourOpcodesAreNotInThisSpec : Prop :=
  (∀ (fields : BitVec 15) (xo : BitVec 11),
    xo.toNat ∈ [0x280, 0x281, 0x284, 0x285, 0x286, 0x287, 0x288, 0x289, 0x28C, 0x28D, 0x28E, 0x28F,
      0x2C0, 0x2C1, 0x2C4, 0x2C5, 0x2C6, 0x2C7, 0x2C8, 0x2C9, 0x2CC, 0x2CD, 0x2CE, 0x2CF] →
    decodeWord (4#6 ++ fields ++ xo) = .error (.notInThisSpec (4#6 ++ fields ++ xo))) ∧
  ∀ (opcode : BitVec 6) (low : BitVec 26), opcode ≠ 4#6 →
    decodeWord (opcode ++ low) = .error (.notInThisSpec (opcode ++ low))

/-- Rule R73 (derived there): the structure of the extended opcode. -/
def Obligations.ExtendedOpcodeStructure : Prop :=
  ∀ i : Instr, (encode i).toNat % 2 ^ 11 =
    0x282 + 0x40 * (if i.isVector then 0 else 1) + 0x08 * (if negates i.op then 1 else 0)
      + 0x01 * (if subtracts i.op then 1 else 0)

/-- Rule R82 and 95_test_vectors.md section 2.1: words written out from the encoding, one or more of each family. -/
def Obligations.WordsOfTheSpecDecodeAsListed : Prop :=
  decodeWord 0x10642A82#32 = .ok (.evfsmadd 3 4 5) ∧
  decodeWord 0x103F0283#32 = .ok (.evfsmsub 1 31 0) ∧
  decodeWord 0x1000FA8A#32 = .ok (.evfsnmadd 0 0 31) ∧
  decodeWord 0x13FFFA8B#32 = .ok (.evfsnmsub 31 31 31) ∧
  decodeWord 0x100002C2#32 = .ok (.efsmadd 0 0 0) ∧
  decodeWord 0x10642AC3#32 = .ok (.efsmsub 3 4 5) ∧
  decodeWord 0x103F02CA#32 = .ok (.efsnmadd 1 31 0) ∧
  decodeWord 0x13FFFACB#32 = .ok (.efsnmsub 31 31 31)

/-- Rule R80: an assembler line stands for an instruction exactly when it is well formed, and its operands are destination,
first source, second source. -/
def Obligations.AssemblerOperandOrder : Prop :=
  ∀ l : AsmLine,
    (l.wellFormed = true ↔ ∃ i, l.assemble = some i) ∧
      ∀ i, l.assemble = some i →
        i.mnemonic = l.mnemonic ∧ l.operands = [i.rD.toNat, i.rA.toNat, i.rB.toNat]

/-! ## Fetch and step -/

/-- Rules R51, R74, R220: a step at an aligned `pc` whose word decodes runs the decoded instruction, and nothing else, unless
a terminal raise has ended the run (`TerminalRaiseEndsTheRun`). -/
def Obligations.StepRunsTheDecodedInstruction : Prop :=
  ∀ (s : State) (w : Word) (i : Instr), s.raised = none → pcAligned s.pc = true → fetchWord s = .ok w → decodeWord w = .ok i →
    step s = exec i s

/-- Rule R52 (decision D2): with the default byte order, the fetched word from the bytes at `pc` to `pc + 3`. -/
def Obligations.FetchedWordIsBigEndian : Prop :=
  ∀ (s : State) (b0 b1 b2 b3 : Byte), s.cfg.insnByteOrder = .bigEndian →
    s.mem.read s.pc = some b0 → s.mem.read (s.pc + 1#32) = some b1 →
    s.mem.read (s.pc + 2#32) = some b2 → s.mem.read (s.pc + 3#32) = some b3 →
    ∃ w, fetchWord s = .ok w ∧
      w.toNat = b0.toNat * 2 ^ 24 + b1.toNat * 2 ^ 16 + b2.toNat * 2 ^ 8 + b3.toNat

/-- Rule R53 (decision D3): a `pc` that is not a multiple of 4 is refused. -/
def Obligations.MisalignedPcIsRefused : Prop :=
  ∀ s : State, s.raised = none → s.pc.toNat % 4 ≠ 0 → step s = .refused (.misalignedPc s.pc)

/-- Rule R51 (decision D3): if one of the four bytes is not in instruction memory the step is stuck; the fault names the
first such address (the model's record, log 10). -/
def Obligations.FetchOutsideMemoryIsStuck : Prop :=
  ∀ (s : State) (k : Nat), s.raised = none → s.pc.toNat % 4 = 0 → k < 4 →
    (∀ j < k, (s.mem.read (s.pc + BitVec.ofNat 32 j)).isSome = true) →
    s.mem.read (s.pc + BitVec.ofNat 32 k) = none →
    step s = .fault (.fetchUnmapped (s.pc + BitVec.ofNat 32 k))

/-- Rule R77 (decision D22): a fetched word that matches no row is refused by name. -/
def Obligations.UnmatchedWordIsRefused : Prop :=
  ∀ (s : State) (w : Word), s.raised = none → pcAligned s.pc = true → fetchWord s = .ok w →
    (∀ m, w &&& 0xFC0007FF#32 ≠ matchWord m) → step s = .refused (.notInThisSpec w)

/-- Rules R51, R52, R54, R74: an instruction placed at an aligned `pc` is what the next step runs, in either byte order. -/
def Obligations.PlacedInstructionRunsNext : Prop :=
  ∀ (s : State) (i : Instr), pcAligned s.pc = true →
    step (s.withFetchWord 32 (encode i).toNat) = exec i (s.withFetchWord 32 (encode i).toNat)

/-- Rules R223 (decision D28) and R59 (decision D23, log 34): a run that ends normally has reached the end address of the
launch, no raise has ended it, and instruction memory and the parameters are those of its start. -/
def Obligations.NormalEndIsAtTheEndAddress : Prop :=
  ∀ (endPc : Word) (n : Nat) (s t : State), runUntil endPc n s = .normalEnd t →
    t.pc = endPc ∧ t.raised = none ∧ t.mem = s.mem ∧ t.cfg = s.cfg

/-! ## Reset and whole-machine invariants -/

/-- Rules R38, R240: the spec gives no reset value, so every clause is the model's choice (log 1 to log 4, log 6): SPEFSCR,
MSR and ESR zero, rounding mode RN, every enable 0, `pc` at the family's reset vector, the general registers, SRR0, SRR1,
IVPR, IVOR33 and IVOR34 zero, the default parameters, instruction memory empty, no raise; and with nothing placed the first
step is stuck there. -/
def Obligations.ResetStateAsLogged : Prop :=
  (∀ r, State.reset.readGpr r = 0#64) ∧ (∀ b, State.reset.scr b = false) ∧
    roundingMode State.reset.spefscr = .rn ∧ State.reset.msr = 0#32 ∧ State.reset.pc = 0xFFFFFFFC#32 ∧
    State.reset.esr = 0#32 ∧ State.reset.srr0 = 0#32 ∧ State.reset.srr1 = 0#32 ∧
    State.reset.ivpr = 0#32 ∧ State.reset.ivor33 = 0#32 ∧ State.reset.ivor34 = 0#32 ∧
    State.reset.cfg = Config.default ∧ State.reset.mem = [] ∧ State.reset.raised = none ∧ step State.reset = .fault (.fetchUnmapped 0xFFFFFFFC#32)

/-- Rules R10, R11, R31, R33, R210 (general knowledge there, decision D4; log 3, log 14, log 15: the places are the model's, not
the source's): the high element is the upper and the low element the lower half of a register, FRMC is the low two bits of
SPEFSCR with 0 RN, 1 RZ, 2 RP, 3 RM, and every field of SPEFSCR, every named bit of MSR, stands at its number, counted 32 to 63
from the most significant bit. -/
def Obligations.ElementsModesAndFieldPlaces : Prop :=
  (∀ v : DWord, (highElement v).toNat = v.toNat / 2 ^ 32 ∧ (lowElement v).toNat = v.toNat % 2 ^ 32) ∧
    (∀ h l : Word, (joinElements h l).toNat = h.toNat * 2 ^ 32 + l.toNat) ∧
    (∀ w : Word, (roundingMode w = .rn ↔ w.toNat % 4 = 0) ∧ (roundingMode w = .rz ↔ w.toNat % 4 = 1) ∧
      (roundingMode w = .rp ↔ w.toNat % 4 = 2) ∧ (roundingMode w = .rm ↔ w.toNat % 4 = 3)) ∧
    (∀ p ∈ [(ScrBit.sovh, 32), (.ovh, 33), (.fgh, 34), (.fxh, 35), (.finvh, 36), (.fdbzh, 37), (.funfh, 38), (.fovfh, 39),
        (.reserved40, 40), (.reserved41, 41), (.finxs, 42), (.finvs, 43), (.fdbzs, 44), (.funfs, 45), (.fovfs, 46),
        (.mode, 47), (.sov, 48), (.ov, 49), (.fg, 50), (.fx, 51), (.finv, 52), (.fdbz, 53), (.funf, 54), (.fovf, 55),
        (.reserved56, 56), (.finxe, 57), (.finve, 58), (.fdbze, 59), (.funfe, 60), (.fovfe, 61), (.frmcUpper, 62),
        (.frmcLower, 63)],
      ∀ w : Word, scrGet p.1 w = true ↔ w.toNat / 2 ^ (63 - p.2) % 2 = 1) ∧
    ∀ p ∈ [(MsrBit.spe, 38), (.we, 45), (.ce, 46), (.ee, 48), (.pr, 49), (.fp, 50), (.me, 51), (.fe0, 52), (.de, 54),
        (.fe1, 55), (.is, 58), (.ds, 59)],
      ∀ w : Word, msrGet p.1 w = true ↔ w.toNat / 2 ^ (63 - p.2) % 2 = 1

/-- The invariant of the machine holds at reset (log 3, log 4: the reset state is the model's). -/
def Obligations.ResetMeetsTheInvariant : Prop := State.reset.inv

/-- Rules R53, R59, R210, R25 (decisions D1, D3, D23, log 34; `TRAP_ENTRY`: log 5, log 41): every step keeps instruction
memory canonical and `pc` a multiple of 4. The invariant carries, for a `TRAP_ENTRY` of which nothing is known, that its
handlers are at multiples of 4; the default and the terminal entry need no such premise. -/
def Obligations.EveryStepKeepsTheInvariant : Prop :=
  ∀ s t : State, s.inv → step s = .next t → t.inv

/-- Rules R31, R32, R59, R216 (decision D23, log 34; reserved bits: log 9; vector registers: log 5, log 41): no step changes
instruction memory, the parameters, an enable, the rounding mode or a reserved bit of SPEFSCR, whatever `TRAP_ENTRY` is, nor
the vector registers, unless `TRAP_ENTRY` is a function of which nothing is known. -/
def Obligations.NoStepChangesMemoryEnablesOrMode : Prop :=
  ∀ s t : State, step s = .next t →
    t.mem = s.mem ∧ t.cfg = s.cfg ∧
      (s.cfg.trapEntry.isCustom = false → t.ivpr = s.ivpr ∧ t.ivor33 = s.ivor33 ∧ t.ivor34 = s.ivor34) ∧
      roundingMode t.spefscr = roundingMode s.spefscr ∧
      ∀ b ∈ [ScrBit.finxe, .finve, .fdbze, .funfe, .fovfe, .reserved40, .reserved41, .reserved56], t.scr b = s.scr b

/-- Rule R29 (derived there): FINXS is never cleared by a step. -/
def Obligations.FinxsIsNeverCleared : Prop :=
  ∀ s t : State, step s = .next t → s.scr .finxs = true → t.scr .finxs = true

/-! ## Devices and availability -/

/-- Rule R2: Table 1. -/
def Obligations.DeviceTable : Prop :=
  (∀ d : Device, d.hasAdditionalSpe = true ↔ d ∈ [.mpc5533, .mpc5534, .mpc5565, .mpc5566, .mpc5567]) ∧
    (∀ d : Device, d.vleSupport = d.hasAdditionalSpe) ∧
    ∀ d : Device, d.core = .e200z3 ↔ d = .mpc5533 ∨ d = .mpc5534

/-- Rules R3, R214 (93 entry U20; decision D15): an instruction is refused exactly on a device without the additional
instructions or where the parameter requires `MSR[SPE]` and it is 0; otherwise it answers a next state. -/
def Obligations.InstructionsRunExactlyWhenAvailable : Prop :=
  ∀ (i : Instr) (s : State),
    let lacks := s.cfg.device = .mpc5554 ∨ s.cfg.device = .mpc5553
    let closed := (if i.isVector then s.cfg.speEnableVector else s.cfg.speEnableScalar) = true ∧ msrGet .spe s.msr = false
    (lacks → exec i s = .refused .deviceLacksInstructions) ∧
      (¬ lacks → closed → exec i s = .refused .speUnavailable) ∧
      (¬ lacks → ¬ closed → ∃ t, exec i s = .next t)

/-! ## Results of the vector instructions -/

/-- Rules R150 to R154 (R121, R123, R124; decisions D10, D19, D25; decision D1 for `pc`), evfsmadd, evfsmsub, evfsnmadd,
evfsnmsub: where no interrupt is raised, the instruction completes: both elements of rD, whatever its number, receive the
rounded results; each status bit is set appropriately; FINXS is set by an inexact event and otherwise kept; the FG, FX pair
of an invalid element is cleared; the exception registers keep their values. -/
def Obligations.VectorStoresRoundedElements : Prop :=
  ∀ (i : Instr) (s : State), i.isVector = true → s.executable i.isVector → s.noInterrupt i →
    ∃ t, exec i s = .next t ∧
      t.readGpr i.rD = joinElements (s.highResult i).rounded (s.lowResult i).rounded ∧
      t.pc.toNat = (s.pc.toNat + 4) % 2 ^ 32 ∧
      t.scr .finvh = statusAfter s.cfg (s.highResult i).inv (s.scr .finvh) ∧
      t.scr .finv = statusAfter s.cfg (s.lowResult i).inv (s.scr .finv) ∧
      t.scr .fovfh = statusAfter s.cfg (s.highResult i).ovf (s.scr .fovfh) ∧
      t.scr .fovf = statusAfter s.cfg (s.lowResult i).ovf (s.scr .fovf) ∧
      t.scr .funfh = statusAfter s.cfg (s.highResult i).unf (s.scr .funfh) ∧
      t.scr .funf = statusAfter s.cfg (s.lowResult i).unf (s.scr .funf) ∧
      (t.scr .finxs = true ↔ s.scr .finxs = true ∨ s.inexactEvent i) ∧
      ((s.highResult i).inv = true → t.scr .fgh = false ∧ t.scr .fxh = false) ∧
      ((s.lowResult i).inv = true → t.scr .fg = false ∧ t.scr .fx = false) ∧
      t.msr = s.msr ∧ t.srr0 = s.srr0 ∧ t.srr1 = s.srr1 ∧ t.esr = s.esr

/-- Rules R154, R201, R205 (decisions D10, D20): an invalid element with FINVE = 1. `u` is the state at the raise: no general
register, FOVF, FOVFH, FUNF, FUNFH or FINXS is written; FINV and FINVH are; the pair FG, FX of an invalid element is cleared.
The entry that follows is that of the parameter `TRAP_ENTRY` (log 5). -/
def Obligations.VectorInvalidInterrupt : Prop :=
  ∀ (i : Instr) (s : State), i.isVector = true → s.executable i.isVector → s.invalidHit i →
    ∃ u : State, exec i s = .next (u.takeInterrupt (.efpData .invalid)) ∧
      u.pc = s.pc ∧ u.msr = s.msr ∧ (∀ r, u.readGpr r = s.readGpr r) ∧
      u.scr .finvh = statusAfter s.cfg (s.highResult i).inv (s.scr .finvh) ∧
      u.scr .finv = statusAfter s.cfg (s.lowResult i).inv (s.scr .finv) ∧
      (∀ b ∈ [ScrBit.fovfh, .fovf, .funfh, .funf, .finxs], u.scr b = s.scr b) ∧
      ((s.highResult i).inv = true → u.scr .fgh = false ∧ u.scr .fxh = false) ∧
      ((s.lowResult i).inv = true → u.scr .fg = false ∧ u.scr .fx = false)

/-- Rules R154, R201, R205 (decisions D10, D24, D25): no invalid interrupt, and an element overflowed with FOVFE = 1 or
underflowed with FUNFE = 1. At the raise `u` no general register and not FINXS is written; all six status bits are; the pair
FG, FX of an element that is invalid or caused the interrupt is cleared. The entry is that of the parameter `TRAP_ENTRY` (log 5). -/
def Obligations.VectorRangeInterrupt : Prop :=
  ∀ (i : Instr) (s : State), i.isVector = true → s.executable i.isVector → ¬ s.invalidHit i → s.rangeHit i →
    let causes := fun r : ElemResult =>
      r.inv = true ∨ (s.scr .fovfe = true ∧ r.ovf = true) ∨ (s.scr .funfe = true ∧ r.unf = true)
    ∃ u : State, exec i s = .next (u.takeInterrupt (.efpData .overflowOrUnderflow)) ∧
      u.pc = s.pc ∧ u.msr = s.msr ∧ (∀ r, u.readGpr r = s.readGpr r) ∧
      u.scr .finvh = statusAfter s.cfg (s.highResult i).inv (s.scr .finvh) ∧
      u.scr .finv = statusAfter s.cfg (s.lowResult i).inv (s.scr .finv) ∧
      u.scr .fovfh = statusAfter s.cfg (s.highResult i).ovf (s.scr .fovfh) ∧
      u.scr .fovf = statusAfter s.cfg (s.lowResult i).ovf (s.scr .fovf) ∧
      u.scr .funfh = statusAfter s.cfg (s.highResult i).unf (s.scr .funfh) ∧
      u.scr .funf = statusAfter s.cfg (s.lowResult i).unf (s.scr .funf) ∧
      u.scr .finxs = s.scr .finxs ∧
      (causes (s.highResult i) → u.scr .fgh = false ∧ u.scr .fxh = false) ∧
      (causes (s.lowResult i) → u.scr .fg = false ∧ u.scr .fx = false)

/-- Rules R154, R202, R125 (decisions D10, D19; conflict C12): no data interrupt, an inexact event and FINXE = 1. At the
raise `u` both elements of rD hold the truncated results, FINXS = 1, and each pair FG, FX holds guard and sticky of its
element, or 0 for an invalid element. The entry is that of the parameter `TRAP_ENTRY` (log 5). -/
def Obligations.VectorRoundInterrupt : Prop :=
  ∀ (i : Instr) (s : State), i.isVector = true → s.executable i.isVector → ¬ s.invalidHit i → ¬ s.rangeHit i →
    s.roundHit i →
    ∃ u : State, exec i s = .next (u.takeInterrupt .efpRound) ∧
      u.pc = s.pc ∧ u.msr = s.msr ∧
      u.readGpr i.rD = joinElements (s.highResult i).truncated (s.lowResult i).truncated ∧
      (∀ r, r ≠ i.rD → u.readGpr r = s.readGpr r) ∧
      u.scr .finvh = statusAfter s.cfg (s.highResult i).inv (s.scr .finvh) ∧
      u.scr .finv = statusAfter s.cfg (s.lowResult i).inv (s.scr .finv) ∧
      u.scr .fovfh = statusAfter s.cfg (s.highResult i).ovf (s.scr .fovfh) ∧
      u.scr .fovf = statusAfter s.cfg (s.lowResult i).ovf (s.scr .fovf) ∧
      u.scr .funfh = statusAfter s.cfg (s.highResult i).unf (s.scr .funfh) ∧
      u.scr .funf = statusAfter s.cfg (s.lowResult i).unf (s.scr .funf) ∧
      u.scr .finxs = true ∧
      u.scr .fgh = (!(s.highResult i).inv && (s.highResult i).g) ∧
      u.scr .fxh = (!(s.highResult i).inv && (s.highResult i).x) ∧
      u.scr .fg = (!(s.lowResult i).inv && (s.lowResult i).g) ∧
      u.scr .fx = (!(s.lowResult i).inv && (s.lowResult i).x)

/-! ## Results of the scalar instructions -/

/-- Rules R170 to R175 (R121, R123, R124; decisions D1, D10, D16, D19), efsmadd, efsmsub, efsnmadd, efsnmsub: where no
interrupt is raised, the instruction completes: the low element of rD, whatever its number, receives the rounded result and
the high element keeps its value; status bits and FINXS as for a vector instruction; FG, FX, FGH and FXH are cleared if the
element is invalid, overflowed or underflowed, whatever the enables; the exception registers keep their values. -/
def Obligations.ScalarStoresRoundedLowElement : Prop :=
  ∀ (i : Instr) (s : State), i.isVector = false → s.executable i.isVector → s.noInterrupt i →
    ∃ t, exec i s = .next t ∧
      highElement (t.readGpr i.rD) = highElement (s.readGpr i.rD) ∧
      lowElement (t.readGpr i.rD) = (s.lowResult i).rounded ∧
      t.pc.toNat = (s.pc.toNat + 4) % 2 ^ 32 ∧
      t.scr .finv = statusAfter s.cfg (s.lowResult i).inv (s.scr .finv) ∧
      t.scr .fovf = statusAfter s.cfg (s.lowResult i).ovf (s.scr .fovf) ∧
      t.scr .funf = statusAfter s.cfg (s.lowResult i).unf (s.scr .funf) ∧
      (t.scr .finxs = true ↔ s.scr .finxs = true ∨ s.inexactEvent i) ∧
      ((s.lowResult i).inv = true ∨ (s.lowResult i).ovf = true ∨ (s.lowResult i).unf = true →
        ∀ b ∈ [ScrBit.fgh, .fxh, .fg, .fx], t.scr b = false) ∧
      t.msr = s.msr ∧ t.srr0 = s.srr0 ∧ t.srr1 = s.srr1 ∧ t.esr = s.esr

/-- Rules R175, R201, R205 (decision D10): an invalid low element with FINVE = 1. At the raise `u` no general register, FOVF,
FUNF or FINXS is written; FINV is; FG, FX, FGH, FXH are cleared. The entry is that of the parameter `TRAP_ENTRY` (log 5). -/
def Obligations.ScalarInvalidInterrupt : Prop :=
  ∀ (i : Instr) (s : State), i.isVector = false → s.executable i.isVector → s.invalidHit i →
    ∃ u : State, exec i s = .next (u.takeInterrupt (.efpData .invalid)) ∧
      u.pc = s.pc ∧ u.msr = s.msr ∧ (∀ r, u.readGpr r = s.readGpr r) ∧
      u.scr .finv = true ∧
      (∀ b ∈ [ScrBit.fovf, .funf, .finxs], u.scr b = s.scr b) ∧
      ∀ b ∈ [ScrBit.fgh, .fxh, .fg, .fx], u.scr b = false

/-- Rules R175, R201, R205 (decision D10): no invalid interrupt, and the element overflowed with FOVFE = 1 or underflowed
with FUNFE = 1. At the raise `u` no general register and not FINXS is written; FINV, FOVF and FUNF are; FG, FX, FGH, FXH are
cleared. The entry is that of the parameter `TRAP_ENTRY` (log 5). -/
def Obligations.ScalarRangeInterrupt : Prop :=
  ∀ (i : Instr) (s : State), i.isVector = false → s.executable i.isVector → ¬ s.invalidHit i → s.rangeHit i →
    ∃ u : State, exec i s = .next (u.takeInterrupt (.efpData .overflowOrUnderflow)) ∧
      u.pc = s.pc ∧ u.msr = s.msr ∧ (∀ r, u.readGpr r = s.readGpr r) ∧
      u.scr .finv = statusAfter s.cfg (s.lowResult i).inv (s.scr .finv) ∧
      u.scr .fovf = statusAfter s.cfg (s.lowResult i).ovf (s.scr .fovf) ∧
      u.scr .funf = statusAfter s.cfg (s.lowResult i).unf (s.scr .funf) ∧
      u.scr .finxs = s.scr .finxs ∧
      ∀ b ∈ [ScrBit.fgh, .fxh, .fg, .fx], u.scr b = false

/-- Rules R175, R202, R125, R123 (decisions D10, D16, D19): no data interrupt, an inexact event and FINXE = 1. At the raise
`u` the low element of rD holds the truncated result and the high element its old value, FINXS = 1, FGH and FXH are cleared,
and FG, FX hold guard and sticky, or 0 if the element is invalid, overflowed or underflowed. The entry is that of
the parameter `TRAP_ENTRY` (log 5). -/
def Obligations.ScalarRoundInterrupt : Prop :=
  ∀ (i : Instr) (s : State), i.isVector = false → s.executable i.isVector → ¬ s.invalidHit i → ¬ s.rangeHit i →
    s.roundHit i →
    let signalled := (s.lowResult i).inv || (s.lowResult i).ovf || (s.lowResult i).unf
    ∃ u : State, exec i s = .next (u.takeInterrupt .efpRound) ∧
      u.pc = s.pc ∧ u.msr = s.msr ∧
      highElement (u.readGpr i.rD) = highElement (s.readGpr i.rD) ∧
      lowElement (u.readGpr i.rD) = (s.lowResult i).truncated ∧
      (∀ r, r ≠ i.rD → u.readGpr r = s.readGpr r) ∧
      u.scr .finv = statusAfter s.cfg (s.lowResult i).inv (s.scr .finv) ∧
      u.scr .fovf = statusAfter s.cfg (s.lowResult i).ovf (s.scr .fovf) ∧
      u.scr .funf = statusAfter s.cfg (s.lowResult i).unf (s.scr .funf) ∧
      u.scr .finxs = true ∧ u.scr .fgh = false ∧ u.scr .fxh = false ∧
      u.scr .fg = (!signalled && (s.lowResult i).g) ∧ u.scr .fx = (!signalled && (s.lowResult i).x)

/-! ## Interrupts -/

/-- Rules R126 and R203: invalid (if enabled) before overflow and underflow (if enabled) before inexact (if enabled); at most
one interrupt; rD is not updated by the first two and is updated by the inexact interrupt. `State.effect` is the outcome
layer: which interrupt is raised and what rD and SPEFSCR hold; `exec` writes exactly that rD and SPEFSCR and then advances
`pc` or takes exactly that interrupt. The conditions are those of rule R203 with decision D19 (an underflow with its
interrupt disabled is an inexact event in all eight instructions; log 25) and decision D25 (overflow and underflow count of an
invalid element too; log 29). No clause rests on what the entry of the interrupt does (log 5). -/
def Obligations.InterruptPriority : Prop :=
  ∀ (i : Instr) (s : State), s.executable i.isVector →
    (∃ t, exec i s = .next t ∧ t.spefscr = (s.effect i).spefscr ∧
        t.readGpr i.rD = (s.effect i).dest.getD (s.readGpr i.rD) ∧ (∀ r, r ≠ i.rD → t.readGpr r = s.readGpr r) ∧
        t = (match (s.effect i).raises with
          | none => (s.applyEffect i.rD (s.effect i)).advancePc
          | some kind => (s.applyEffect i.rD (s.effect i)).takeInterrupt kind)) ∧
      ((s.effect i).raises = some (.efpData .invalid) ↔ s.invalidHit i) ∧
      ((s.effect i).raises = some (.efpData .overflowOrUnderflow) ↔ ¬ s.invalidHit i ∧ s.rangeHit i) ∧
      ((s.effect i).raises = some .efpRound ↔ ¬ s.invalidHit i ∧ ¬ s.rangeHit i ∧ s.roundHit i) ∧
      ((s.effect i).raises = none ↔ s.noInterrupt i) ∧
      ((s.effect i).dest = none ↔ s.invalidHit i ∨ s.rangeHit i)

/-- Rule R210's default entry (from general knowledge there, OPEN by decision D14; log 5) as every raising instruction takes
it where the parameter `TRAP_ENTRY` has that value: the saved address, MSR and syndrome, the MSR bits cleared and kept, and the handler address. MSR and ESR bit positions
are log 3. -/
def Obligations.InterruptEntrySavesAndVectors : Prop :=
  ∀ (i : Instr) (s : State), s.cfg.trapEntry = .embedded → s.executable i.isVector → ¬ s.noInterrupt i →
    let data := s.invalidHit i ∨ s.rangeHit i
    ∃ t, exec i s = .next t ∧
      (data → t.srr0 = s.pc) ∧ (¬ data → t.srr0.toNat = (s.pc.toNat + 4) % 2 ^ 32) ∧
      t.srr1 = s.msr ∧
      t.esr = 0x00000080#32 ∧
      t.raised = s.raised ∧ t.ivpr = s.ivpr ∧ t.ivor33 = s.ivor33 ∧ t.ivor34 = s.ivor34 ∧
      (∀ b ∈ [MsrBit.we, .ee, .pr, .fp, .fe0, .fe1, .is, .ds, .spe], msrGet b t.msr = false) ∧
      (∀ b ∈ [MsrBit.ce, .me, .de], msrGet b t.msr = msrGet b s.msr) ∧
      (data → t.pc.toNat = s.ivpr.toNat / 2 ^ 16 * 2 ^ 16 + s.ivor33.toNat / 2 ^ 4 % 2 ^ 12 * 2 ^ 4) ∧
      (¬ data → t.pc.toNat = s.ivpr.toNat / 2 ^ 16 * 2 ^ 16 + s.ivor34.toNat / 2 ^ 4 % 2 ^ 12 * 2 ^ 4)

/-- Rule R212 under the default of R210 (both from general knowledge there; log 5): returning right after an entry restores
MSR and resumes at the interrupted instruction after a data interrupt and at the next one after a round interrupt. -/
def Obligations.ReturnUndoesEntry : Prop :=
  ∀ (s : State) (kind : Interrupt), s.cfg.trapEntry = .embedded → pcAligned s.pc = true →
    (s.takeInterrupt kind).returnFromInterrupt.msr = s.msr ∧
      (s.takeInterrupt kind).returnFromInterrupt.pc = (match kind with
        | .efpData _ => s.pc
        | .efpRound => s.pc + 4#32) ∧
      (∀ r, (s.takeInterrupt kind).returnFromInterrupt.readGpr r = s.readGpr r) ∧
      (s.takeInterrupt kind).returnFromInterrupt.spefscr = s.spefscr

/-- Rules R8, R210, R211 (decision D14): `TRAP_ENTRY` is a parameter. Whatever it is, taking an interrupt leaves the general
registers, SPEFSCR, instruction memory and the parameters as they are at the raise; the terminal value leaves all of the
state as it is and records the kind; a custom value answers the registers of the entry it stands for, of which nothing is
known but that it gives the two interrupts distinct vectors (rule R211 (c); log 41), so that a claim may take any such
function `entry` as a premise `openTrapEntry n = entry`; and with any custom value the round interrupt starts elsewhere than a
data interrupt from the same state. The default uses the offset register IVOR34 for the one and IVOR33 for the other
(`InterruptEntrySavesAndVectors`). -/
def Obligations.TrapEntryIsAParameter : Prop :=
  ∀ (s : State) (kind : Interrupt),
    let t := s.takeInterrupt kind
    (∀ r, t.readGpr r = s.readGpr r) ∧ t.spefscr = s.spefscr ∧ t.mem = s.mem ∧ t.cfg = s.cfg ∧
      (s.cfg.trapEntry = .terminal → t = { s with raised := some kind }) ∧
      ∀ (n : Nat) (entry : TrapEntry), s.cfg.trapEntry = .custom n → openTrapEntry n = entry →
        (∀ cause, (s.takeInterrupt .efpRound).pc ≠ (s.takeInterrupt (.efpData cause)).pc) ∧
        (vectorsDistinct entry →
          let regs := entry s kind.kind
          t.raised = s.raised ∧ t.pc = regs.pc ∧ t.msr = regs.msr ∧ t.srr0 = regs.srr0 ∧ t.srr1 = regs.srr1 ∧
            t.esr = regs.esr ∧ t.ivpr = regs.ivpr ∧ t.ivor33 = regs.ivor33 ∧ t.ivor34 = regs.ivor34)

/-- Rules R210 (a), R223 (a) (decisions D14, D28): where `TRAP_ENTRY` is terminal, an instruction that raises ends the run: the
kind is recorded, `pc` and the exception registers are those at the raise, no further step is taken, and a run from there
ends by that raise at once and not normally, whatever the end address is. -/
def Obligations.TerminalRaiseEndsTheRun : Prop :=
  ∀ (i : Instr) (s : State), s.cfg.trapEntry = .terminal → s.executable i.isVector → ¬ s.noInterrupt i →
    ∃ t kind, exec i s = .next t ∧ t.raised = some kind ∧
      (kind = .efpData .invalid ↔ s.invalidHit i) ∧
      (kind = .efpData .overflowOrUnderflow ↔ ¬ s.invalidHit i ∧ s.rangeHit i) ∧
      (kind = .efpRound ↔ ¬ s.invalidHit i ∧ ¬ s.rangeHit i) ∧
      t.pc = s.pc ∧ t.msr = s.msr ∧ t.srr0 = s.srr0 ∧ t.srr1 = s.srr1 ∧ t.esr = s.esr ∧
      step t = .fault (.runEnded kind) ∧
      ∀ (endPc : Word) (n : Nat), runUntil endPc n t = .raised kind t

/-! ## Frames and dependence -/

/-- Rules R24, R26, R50 (and R31, R32; reserved bits log 9, exception registers log 5): the frame of all eight instructions,
which are register-only. Every general register but rD is unchanged, every byte of memory is unchanged, the enables, the
rounding mode and the reserved bits of SPEFSCR are unchanged, and where no interrupt is raised so are MSR, SRR0, SRR1, ESR,
the vector registers and the record of a terminal raise. Where one is raised, the vector registers are unchanged too unless
`TRAP_ENTRY` is a function of which nothing is known (log 41). -/
def Obligations.FrameOfTheEightInstructions : Prop :=
  ∀ (i : Instr) (s t : State), exec i s = .next t →
    (∀ r, r ≠ i.rD → t.readGpr r = s.readGpr r) ∧
      (∀ a, t.mem.read a = s.mem.read a) ∧
      (∀ b ∈ [ScrBit.finxe, .finve, .fdbze, .funfe, .fovfe, .frmcUpper, .frmcLower, .reserved40, .reserved41, .reserved56],
        t.scr b = s.scr b) ∧
      t.cfg = s.cfg ∧
      (s.noInterrupt i ∨ s.cfg.trapEntry.isCustom = false →
        t.ivpr = s.ivpr ∧ t.ivor33 = s.ivor33 ∧ t.ivor34 = s.ivor34) ∧
      (s.noInterrupt i ∨ s.cfg.trapEntry ≠ .terminal → t.raised = s.raised) ∧
      (s.noInterrupt i ∨ s.cfg.trapEntry = .terminal →
        t.msr = s.msr ∧ t.srr0 = s.srr0 ∧ t.srr1 = s.srr1 ∧ t.esr = s.esr) ∧
      (i.isVector = false → highElement (t.readGpr i.rD) = highElement (s.readGpr i.rD))

/-- Rule R50 (derived there): what an instruction does depends on no byte of memory, and it writes none. Its rD and SPEFSCR
never do; the whole outcome does not, unless it enters a handler by a `TRAP_ENTRY` of which nothing is known, which may look
at all of the state (log 41). -/
def Obligations.InstructionsIgnoreMemory : Prop :=
  ∀ (i : Instr) (s : State) (m : Memory),
    (s.noInterrupt i ∨ s.cfg.trapEntry.isCustom = false →
      exec i { s with mem := m } = (match exec i s with
        | .next t => .next { t with mem := m }
        | .fault r => .fault r
        | .refused r => .refused r)) ∧
    (∀ r, exec i s = .refused r → exec i { s with mem := m } = .refused r) ∧
    ∀ t, exec i s = .next t → ∃ t', exec i { s with mem := m } = .next t' ∧
      (∀ r, t'.readGpr r = t.readGpr r) ∧ t'.spefscr = t.spefscr ∧ t'.cfg = t.cfg ∧ t'.mem = m

/-- Rule R215 (derived there): no instruction depends on a mode of MSR. With any other MSR that has the same `MSR[SPE]` it gives
the same registers, SPEFSCR and memory, and the same `pc` unless it enters a handler by a `TRAP_ENTRY` of which nothing is
known (log 41). -/
def Obligations.InstructionsIgnoreTheMode : Prop :=
  ∀ (i : Instr) (s t : State) (msr : Word), msrGet .spe msr = msrGet .spe s.msr → exec i s = .next t →
    ∃ t', exec i { s with msr := msr } = .next t' ∧
      (∀ r, t'.readGpr r = t.readGpr r) ∧ t'.spefscr = t.spefscr ∧ t'.mem = t.mem ∧
      (s.noInterrupt i ∨ s.cfg.trapEntry.isCustom = false → t'.pc = t.pc)

/-- Rule R170: a scalar instruction does not read the high elements of rA and rB: two states that agree on everything but the
high halves of the general registers give the same low element, the same SPEFSCR and the same `pc` (`pc` unless a handler is
entered by a `TRAP_ENTRY` of which nothing is known, log 41). -/
def Obligations.ScalarIgnoresHighElements : Prop :=
  ∀ (i : Instr) (s s' : State), i.isVector = false → s' = { s with gpr := s'.gpr } →
    (∀ r, lowElement (s'.readGpr r) = lowElement (s.readGpr r)) →
    ∀ t t', exec i s = .next t → exec i s' = .next t' →
      (∀ r, lowElement (t'.readGpr r) = lowElement (t.readGpr r)) ∧ t'.spefscr = t.spefscr ∧
        (s.noInterrupt i ∨ s.cfg.trapEntry.isCustom = false → t'.pc = t.pc)

/-- Rule R155: the lanes do not interact in the data path. Two states that agree on everything but the low halves of the
general registers give, with all enables 0, the same high result element and the same high status bits. -/
def Obligations.HighLaneIgnoresLowLane : Prop :=
  ∀ (i : Instr) (s s' : State), i.isVector = true → s' = { s with gpr := s'.gpr } →
    (∀ b ∈ [ScrBit.finve, .fovfe, .funfe, .finxe], s.scr b = false) →
    (∀ r, highElement (s'.readGpr r) = highElement (s.readGpr r)) →
    ∀ t t', exec i s = .next t → exec i s' = .next t' →
      (∀ r, highElement (t'.readGpr r) = highElement (t.readGpr r)) ∧
        ∀ b ∈ [ScrBit.finvh, .fovfh, .funfh], t'.scr b = t.scr b

/-- Rule R155, the other lane: two states that agree on everything but the high halves of the general registers give, with all
enables 0, the same low result element and the same low status bits. -/
def Obligations.LowLaneIgnoresHighLane : Prop :=
  ∀ (i : Instr) (s s' : State), i.isVector = true → s' = { s with gpr := s'.gpr } →
    (∀ b ∈ [ScrBit.finve, .fovfe, .funfe, .finxe], s.scr b = false) →
    (∀ r, lowElement (s'.readGpr r) = lowElement (s.readGpr r)) →
    ∀ t t', exec i s = .next t → exec i s' = .next t' →
      (∀ r, lowElement (t'.readGpr r) = lowElement (t.readGpr r)) ∧
        ∀ b ∈ [ScrBit.finv, .fovf, .funf], t'.scr b = t.scr b

/-! ## The element function -/

/-- Rule R104 (decision D9 for the scalar form): the invalid condition of an element. -/
def Obligations.InvalidInputCondition : Prop :=
  ∀ (cfg : Config) (op : Op) (isVector : Bool) (mode : RoundingMode) (a b d free : Word),
    let bad := fun x : Word => (expOf x = 0 ∧ fracOf x ≠ 0) ∨ expOf x = 255
    (elem cfg op isVector mode a b d free).inv = true ↔
      bad a ∨ bad b ∨ ((isVector = true ∨ cfg.scalarFinvIncludesRd = true) ∧ bad d)

/-- Rule R109 (decision D8; conflict C5): a NaN or infinite multiplicand, the other being neither zero nor denormalized. -/
def Obligations.SpecialMultiplicandSaturates : Prop :=
  ∀ (cfg : Config) (op : Op) (isVector : Bool) (mode : RoundingMode) (a b d free : Word),
    expOf a ≠ 0 → expOf b ≠ 0 → expOf a = 255 ∨ expOf b = 255 →
    let r := elem cfg op isVector mode a b d free
    let sat := if signOf a = signOf b then 0x7F7FFFFF#32 else 0xFF7FFFFF#32
    let flipped := if signOf a = signOf b then 0xFF7FFFFF#32 else 0x7F7FFFFF#32
    r.rounded = (match op with
        | .madd => sat
        | .msub => sat
        | .nmadd => if cfg.nmaddSpecialNegated then flipped else sat
        | .nmsub => flipped) ∧
      r.truncated = r.rounded ∧ r.inv = true ∧ r.ovf = false ∧ r.unf = false ∧ r.inx = false ∧ r.g = false ∧ r.x = false

/-- Rules R102, R111 (the absence of overflow, underflow and inexact is derived there): a NaN or infinite rD element saturates
by its sign, also where a zero multiplicand meets an infinity. -/
def Obligations.SpecialAddendSaturatesBySign : Prop :=
  ∀ (cfg : Config) (op : Op) (isVector : Bool) (mode : RoundingMode) (a b d free : Word),
    (expOf a = 0 ∨ expOf b = 0 ∨ (expOf a ≠ 255 ∧ expOf b ≠ 255)) → expOf d = 255 →
    let r := elem cfg op isVector mode a b d free
    r.rounded = (match op, signOf d with
        | .madd, false => 0x7F7FFFFF#32
        | .madd, true => 0xFF7FFFFF#32
        | .msub, false => 0xFF7FFFFF#32
        | .msub, true => 0x7F7FFFFF#32
        | .nmadd, false => 0xFF7FFFFF#32
        | .nmadd, true => 0x7F7FFFFF#32
        | .nmsub, false => 0x7F7FFFFF#32
        | .nmsub, true => 0xFF7FFFFF#32) ∧
      r.truncated = r.rounded ∧ r.ovf = false ∧ r.unf = false ∧ r.inx = false ∧ r.g = false ∧ r.x = false

/-- Rules R102, R108, R128 (decision D5): a zero or denormalized multiplicand, whatever the other is (an infinity or NaN
too), makes the product a zero, so a normalized rD element, with the sign the operation gives it, is the exact result. -/
def Obligations.ZeroProductReturnsTheAddend : Prop :=
  ∀ (cfg : Config) (op : Op) (isVector : Bool) (mode : RoundingMode) (a b d free : Word),
    expOf a = 0 ∨ expOf b = 0 → 1 ≤ expOf d → expOf d ≤ 254 →
    let r := elem cfg op isVector mode a b d free
    r.rounded = (match op with
        | .madd => d
        | .msub => flipSign d
        | .nmadd => flipSign d
        | .nmsub => d) ∧
      r.truncated = r.rounded ∧ r.ovf = false ∧ r.unf = false ∧ r.inx = false ∧ r.g = false ∧ r.x = false

/-- Rules R108, R110 (decision D7): the intermediate product. It is the exact product under `PRODUCT_ROUNDING = exact`, and under
`single` the exact product rounded to a 24-bit significand in the current mode with unbounded exponent; a zero or denormalized
multiplicand makes it zero under both. There is one such product, it is what the element function adds, and its own rounding
is inexact exactly where it differs from the exact product. -/
def Obligations.IntermediateProductIsExactOrRounded : Prop :=
  ∀ (cfg : Config) (mode : RoundingMode) (a b : Word),
    (expOf a = 0 ∨ expOf b = 0 ∨ (expOf a ≠ 255 ∧ expOf b ≠ 255)) →
    let p := product cfg mode a b
    (∀ P : ℚ, isProduct cfg mode a b P ↔ P = (p.value : ℚ) / 2 ^ 300) ∧
      (p.inexact = true ↔ (p.value : ℚ) / 2 ^ 300 ≠ elemVal a * elemVal b)

/-- Rules R113, R118 (decisions D6, D7, D13; log 18, log 23): a sum that is exactly zero gives a zero of the stated sign, with no
overflow, underflow, guard or sticky. `P` is the intermediate product of either value of `PRODUCT_ROUNDING`; `inx` says that
its own rounding was inexact, which it never is under `exact`. -/
def Obligations.ExactZeroSumSign : Prop :=
  ∀ (cfg : Config) (op : Op) (isVector : Bool) (mode : RoundingMode) (a b d free : Word) (P : ℚ),
    isProduct cfg mode a b P →
    (expOf a = 0 ∨ expOf b = 0 ∨ (expOf a ≠ 255 ∧ expOf b ≠ 255)) → expOf d ≠ 255 →
    sumWith op P d = 0 →
    let r := elem cfg op isVector mode a b d free
    let ps := signOf a ^^ signOf b
    let ds := signOf d ^^ subtracts op
    let sign := if ps = ds then ps else decide (mode = .rm)
    r.rounded = (if (sign ^^ negates op) = true then 0x80000000#32 else 0x00000000#32) ∧
      r.truncated = r.rounded ∧ r.ovf = false ∧ r.unf = false ∧ r.g = false ∧ r.x = false ∧
      (r.inx = true ↔ P ≠ elemVal a * elemVal b) ∧ (cfg.productRounding = .exact → r.inx = false)

/-- Rule R116 (decisions D7, D12, D18; conflict C7; log 22, log 24), for both values of `PRODUCT_ROUNDING` and of
`UNDERFLOW_DETECT`: underflow is a nonzero sum below `2^-126` in magnitude, before rounding or, for `after_rounding`, once
rounded (that this is the other reading is log 22); its result is a zero whose sign depends on the operation and the mode, not
on the sign of the sum, with no other flag (log 18), guard or sticky. -/
def Obligations.UnderflowFlushesToModeSignedZero : Prop :=
  ∀ (cfg : Config) (op : Op) (isVector : Bool) (mode : RoundingMode) (a b d free : Word) (P : ℚ),
    isProduct cfg mode a b P →
    (expOf a = 0 ∨ expOf b = 0 ∨ (expOf a ≠ 255 ∧ expOf b ≠ 255)) → expOf d ≠ 255 →
    let r := elem cfg op isVector mode a b d free
    let T := sumWith op P d
    (r.unf = true ↔ T ≠ 0 ∧
        match cfg.underflowDetect, mode with
        | .beforeRounding, _ => |T| < (2 : ℚ) ^ (-126 : ℤ)
        | .afterRounding, .rn => |T| < (2 : ℚ) ^ (-126 : ℤ) - (2 : ℚ) ^ (-151 : ℤ)
        | .afterRounding, .rz => |T| < (2 : ℚ) ^ (-126 : ℤ)
        | .afterRounding, .rp => -(2 : ℚ) ^ (-126 : ℤ) < T ∧ T ≤ (2 : ℚ) ^ (-126 : ℤ) - (2 : ℚ) ^ (-150 : ℤ)
        | .afterRounding, .rm => -((2 : ℚ) ^ (-126 : ℤ) - (2 : ℚ) ^ (-150 : ℤ)) ≤ T ∧ T < (2 : ℚ) ^ (-126 : ℤ)) ∧
      (r.unf = true →
        r.rounded = (if (decide (mode = .rm) ^^ negates op) = true then 0x80000000#32 else 0x00000000#32) ∧
          r.truncated = r.rounded ∧ r.ovf = false ∧ r.inx = false ∧ r.g = false ∧ r.x = false)

/-- Rule R115 (decisions D7, D11; log 22), for both values of `PRODUCT_ROUNDING` and of `OVERFLOW_DETECT`: the sums that overflow
in each mode (those whose rounded magnitude is at least `2^128`, or, for `before_rounding`, whose unrounded magnitude is), and
the saturated result, negated for a negated operation, with no other flag (log 18), guard or sticky. -/
def Obligations.OverflowSaturatesBySignOfSum : Prop :=
  ∀ (cfg : Config) (op : Op) (isVector : Bool) (mode : RoundingMode) (a b d free : Word) (P : ℚ),
    isProduct cfg mode a b P →
    (expOf a = 0 ∨ expOf b = 0 ∨ (expOf a ≠ 255 ∧ expOf b ≠ 255)) → expOf d ≠ 255 →
    let r := elem cfg op isVector mode a b d free
    let T := sumWith op P d
    (r.ovf = true ↔ (match cfg.overflowDetect, mode with
        | .beforeRounding, _ => (2 : ℚ) ^ 128 ≤ |T|
        | .afterRounding, .rn => (2 : ℚ) ^ 128 - 2 ^ 103 ≤ |T|
        | .afterRounding, .rz => (2 : ℚ) ^ 128 ≤ |T|
        | .afterRounding, .rp => (2 : ℚ) ^ 128 - 2 ^ 104 < T ∨ T ≤ -(2 : ℚ) ^ 128
        | .afterRounding, .rm => T < -((2 : ℚ) ^ 128 - 2 ^ 104) ∨ (2 : ℚ) ^ 128 ≤ T)) ∧
      (r.ovf = true →
        r.rounded = (if (decide (T < 0) ^^ negates op) = true then 0xFF7FFFFF#32 else 0x7F7FFFFF#32) ∧
          r.truncated = r.rounded ∧ r.unf = false ∧ r.inx = false ∧ r.g = false ∧ r.x = false)

/-- Rules R12, R14, R101, R114, R117, R118 (decisions D7, D21; log 26; guard and sticky: log 28), for the default detection points
and both values of `PRODUCT_ROUNDING`: a nonzero sum that neither overflows nor underflows is correctly rounded. Against the
rational sum `T` of the intermediate product `P`, with `2^e <= |T| < 2^(e+1)`, the truncated element is `T` rounded toward
zero to 24 significant bits (it is not below `2^e` in magnitude either, so its unit in the last place is at least `2^(e-23)`),
the rounded element, not below `2^e` in magnitude, is `T` rounded in the mode (ties to an even fraction). Guard says that what
truncation left out is at least half a unit in the last place, sticky that it is neither nothing nor exactly half, and the
rounded element is the truncated one plus one unit exactly where guard, sticky, the sign of `T` and the mode say. `inx` says
that guard or sticky is set or that the product's own rounding was inexact. For a negated operation all this holds of the
element with its sign bit inverted back. -/
def Obligations.FiniteResultIsCorrectlyRounded : Prop :=
  ∀ (cfg : Config) (op : Op) (isVector : Bool) (mode : RoundingMode) (a b d free : Word) (P : ℚ),
    isProduct cfg mode a b P → cfg.overflowDetect = .afterRounding → cfg.underflowDetect = .beforeRounding →
    (expOf a = 0 ∨ expOf b = 0 ∨ (expOf a ≠ 255 ∧ expOf b ≠ 255)) → expOf d ≠ 255 →
    let r := elem cfg op isVector mode a b d free
    let T := sumWith op P d
    let v := elemVal (baseOf op r.rounded)
    let vt := elemVal (baseOf op r.truncated)
    let up := match mode with
      | .rn => r.g && (r.x || decide (fracOf r.truncated % 2 = 1))
      | .rz => false
      | .rp => (r.g || r.x) && decide (0 < T)
      | .rm => (r.g || r.x) && decide (T < 0)
    r.ovf = false → r.unf = false → T ≠ 0 →
    ∃ e : ℤ, (2 : ℚ) ^ e ≤ |T| ∧ |T| < (2 : ℚ) ^ (e + 1) ∧ -126 ≤ e ∧ e ≤ 127 ∧
      0 < vt * T ∧ (2 : ℚ) ^ e ≤ |vt| ∧ |vt| ≤ |T| ∧ |T| < |vt| + (2 : ℚ) ^ (e - 23) ∧
      0 < v * T ∧ (2 : ℚ) ^ e ≤ |v| ∧
      (r.g = true ↔ (2 : ℚ) ^ (e - 24) ≤ |T| - |vt|) ∧
      (r.x = true ↔ |T| - |vt| ≠ 0 ∧ |T| - |vt| ≠ (2 : ℚ) ^ (e - 24)) ∧
      (r.g = true ∨ r.x = true ↔ vt ≠ T) ∧
      (r.inx = true ↔ r.g = true ∨ r.x = true ∨ P ≠ elemVal a * elemVal b) ∧
      |v| = |vt| + (if up then (2 : ℚ) ^ (e - 23) else 0) ∧
      (match mode with
        | .rn => |v - T| ≤ (2 : ℚ) ^ (e - 24) ∧ (|v - T| = (2 : ℚ) ^ (e - 24) → fracOf r.rounded % 2 = 0)
        | .rz => v = vt
        | .rp => T ≤ v ∧ v < T + (2 : ℚ) ^ (e - 23)
        | .rm => v ≤ T ∧ T - (2 : ℚ) ^ (e - 23) < v)

/-- Rules R101, R109 (decision D8, log 19): a negated operation is its base operation with the sign bit of the result inverted
and the same flags, for either value of `NMADD_SPECIAL_NEGATED`; the one exception is `nmadd` with a NaN or infinite multiplicand under `NMADD_SPECIAL_NEGATED = false`. -/
def Obligations.NegatedOperationInvertsTheSign : Prop :=
  ∀ (cfg : Config) (isVector : Bool) (mode : RoundingMode) (a b d free : Word),
    let inverted := fun r : ElemResult =>
      { r with rounded := r.rounded ^^^ 0x80000000#32, truncated := r.truncated ^^^ 0x80000000#32 }
    let special := expOf a ≠ 0 ∧ expOf b ≠ 0 ∧ (expOf a = 255 ∨ expOf b = 255)
    elem cfg .nmsub isVector mode a b d free = inverted (elem cfg .msub isVector mode a b d free) ∧
      (¬ special ∨ cfg.nmaddSpecialNegated = true → elem cfg .nmadd isVector mode a b d free = inverted (elem cfg .madd isVector mode a b d free)) ∧
      (special → cfg.nmaddSpecialNegated = false →
        elem cfg .nmadd isVector mode a b d free = elem cfg .madd isVector mode a b d free)

/-- Rule R119 (a): at most one of `ovf`, `unf`, `inx` holds for an element, under every parameter value. -/
def Obligations.AtMostOneOfOvfUnfInx : Prop :=
  ∀ (cfg : Config) (op : Op) (isVector : Bool) (mode : RoundingMode) (a b d free : Word),
    let r := elem cfg op isVector mode a b d free
    ¬ (r.ovf = true ∧ r.unf = true) ∧ ¬ (r.ovf = true ∧ r.inx = true) ∧ ¬ (r.unf = true ∧ r.inx = true)

/-- Rule R119 (c), for the default detection points: no result element is a denormalized number, an infinity or a NaN. -/
def Obligations.ResultsAreZeroOrNormalized : Prop :=
  ∀ (cfg : Config) (op : Op) (isVector : Bool) (mode : RoundingMode) (a b d free : Word),
    cfg.overflowDetect = .afterRounding → cfg.underflowDetect = .beforeRounding →
    let r := elem cfg op isVector mode a b d free
    ∀ x ∈ [r.rounded, r.truncated], (expOf x = 0 ∧ fracOf x = 0) ∨ (1 ≤ expOf x ∧ expOf x ≤ 254)

/-- Rule R119 (d), (e), for the default detection points: the rounded and the truncated element are equal unless `inx`, and
then differ by at most one unit in the last place, the rounded one being the larger in magnitude. -/
def Obligations.RoundedIsTruncatedOrNextUp : Prop :=
  ∀ (cfg : Config) (op : Op) (isVector : Bool) (mode : RoundingMode) (a b d free : Word),
    cfg.overflowDetect = .afterRounding → cfg.underflowDetect = .beforeRounding →
    let r := elem cfg op isVector mode a b d free
    (r.inx = false → r.rounded = r.truncated) ∧
      signOf r.rounded = signOf r.truncated ∧
      (r.rounded.toNat = r.truncated.toNat ∨ r.rounded.toNat = r.truncated.toNat + 1)

/-- Rule R119 (f): in a scalar instruction, with `SCALAR_FINV_INCLUDES_RD = false`, an invalid element has no overflow,
underflow or inexact outcome. -/
def Obligations.ScalarInvalidElementIsExact : Prop :=
  ∀ (cfg : Config) (op : Op) (mode : RoundingMode) (a b d free : Word), cfg.scalarFinvIncludesRd = false →
    let r := elem cfg op false mode a b d free
    r.inv = true → r.ovf = false ∧ r.unf = false ∧ r.inx = false

/-- Rules R114, R117 (guard and sticky are from general knowledge there): from the truncated significand, its sign, guard and
sticky and the mode a handler can compute the rounded significand. -/
def Obligations.GuardAndStickyDetermineTheRounding : Prop :=
  ∀ (mode : RoundingMode) (T : Int), T ≠ 0 →
    let p := roundParts mode T
    let up := match mode with
      | .rn => p.guard && (p.sticky || p.t % 2 == 1)
      | .rz => false
      | .rp => (p.guard || p.sticky) && !p.sign
      | .rm => (p.guard || p.sticky) && p.sign
    2 ^ 23 ≤ p.t ∧ p.t < 2 ^ 24 ∧ (p.inexact = true ↔ p.guard = true ∨ p.sticky = true) ∧
      p.r * 2 ^ p.kr = (p.t + (if up then 1 else 0)) * 2 ^ p.k

/-- Rule R110 (decision D7): where the exact product of two normalized elements needs no rounding to 24 bits, the two values of
the OPEN parameter `PRODUCT_ROUNDING` give the same element result. -/
def Obligations.ProductRoundingAgreesOnShortProducts : Prop :=
  ∀ (cfg : Config) (op : Op) (isVector : Bool) (mode : RoundingMode) (a b d free : Word),
    (roundParts mode (fixedProduct a b)).inexact = false →
    elem { cfg with productRounding := .single } op isVector mode a b d free =
      elem { cfg with productRounding := .exact } op isVector mode a b d free
end

