-- ==== Sys2Proof/Laws/Decode.lean ====
section
/-! SUPPORT. The fields and the masked word of an encoded instruction, and the bytes of a word. -/

namespace Sys2Proof

theorem toNat_encode (i : Instr) :
    (encode i).toNat =
      4 * 2 ^ 26 + i.rD.toNat * 2 ^ 21 + i.rA.toNat * 2 ^ 16 + i.rB.toNat * 2 ^ 11 + (extendedOpcode i.mnemonic).toNat := by
  have hd := i.rD.isLt
  have ha := i.rA.isLt
  have hb := i.rB.isLt
  have hx := (extendedOpcode i.mnemonic).isLt
  simp only [encode, opcd, BitVec.toNat_append, BitVec.toNat_ofNat]
  rw [← Nat.shiftLeft_add_eq_or_of_lt ha, ← Nat.shiftLeft_add_eq_or_of_lt hd, ← Nat.shiftLeft_add_eq_or_of_lt hb,
    ← Nat.shiftLeft_add_eq_or_of_lt hx]
  simp only [Nat.shiftLeft_eq]
  omega

theorem toNat_fieldRD (w : Word) : (fieldRD w).toNat = w.toNat / 2 ^ 21 % 32 := by
  simp [fieldRD, BitVec.extractLsb'_toNat, Nat.shiftRight_eq_div_pow]

theorem toNat_fieldRA (w : Word) : (fieldRA w).toNat = w.toNat / 2 ^ 16 % 32 := by
  simp [fieldRA, BitVec.extractLsb'_toNat, Nat.shiftRight_eq_div_pow]

theorem toNat_fieldRB (w : Word) : (fieldRB w).toNat = w.toNat / 2 ^ 11 % 32 := by
  simp [fieldRB, BitVec.extractLsb'_toNat, Nat.shiftRight_eq_div_pow]

@[simp] theorem fieldRD_encode (i : Instr) : fieldRD (encode i) = i.rD := by
  apply BitVec.eq_of_toNat_eq
  have hd := i.rD.isLt
  have ha := i.rA.isLt
  have hb := i.rB.isLt
  have hx := (extendedOpcode i.mnemonic).isLt
  rw [toNat_fieldRD, toNat_encode]
  omega

@[simp] theorem fieldRA_encode (i : Instr) : fieldRA (encode i) = i.rA := by
  apply BitVec.eq_of_toNat_eq
  have hd := i.rD.isLt
  have ha := i.rA.isLt
  have hb := i.rB.isLt
  have hx := (extendedOpcode i.mnemonic).isLt
  rw [toNat_fieldRA, toNat_encode]
  omega

@[simp] theorem fieldRB_encode (i : Instr) : fieldRB (encode i) = i.rB := by
  apply BitVec.eq_of_toNat_eq
  have hd := i.rD.isLt
  have ha := i.rA.isLt
  have hb := i.rB.isLt
  have hx := (extendedOpcode i.mnemonic).isLt
  rw [toNat_fieldRB, toNat_encode]
  omega

/-- The mask keeps OPCD and XO and clears the register fields (rule R72). -/
theorem toNat_and_decodeMask (w : Word) :
    (w &&& decodeMask).toNat = w.toNat / 2 ^ 26 * 2 ^ 26 + w.toNat % 2 ^ 11 := by
  have hsplit : w.extractLsb' 26 6 ++ 0#15 ++ w.extractLsb' 0 11 = w &&& decodeMask := by
    ext i hi
    simp only [BitVec.getElem_and, BitVec.getElem_append, decodeMask]
    interval_cases i <;> simp
  rw [← hsplit]
  have h0 : (w.extractLsb' 0 11).toNat < 2 ^ 11 := (w.extractLsb' 0 11).isLt
  have hw := w.isLt
  rw [BitVec.toNat_append, BitVec.toNat_append, ← Nat.shiftLeft_add_eq_or_of_lt h0,
    ← Nat.shiftLeft_add_eq_or_of_lt (0#15).isLt]
  simp only [BitVec.extractLsb'_toNat, Nat.shiftRight_eq_div_pow, Nat.shiftLeft_eq]
  simp
  omega

theorem mnemonic_instr (m : Mnemonic) (rD rA rB : RegNum) :
    (m.instr rD rA rB).mnemonic = m ∧ (m.instr rD rA rB).rD = rD ∧ (m.instr rD rA rB).rA = rA ∧
      (m.instr rD rA rB).rB = rB := by
  cases m <;> exact ⟨rfl, rfl, rfl, rfl⟩

theorem instr_of_mnemonic (i : Instr) : i.mnemonic.instr i.rD i.rA i.rB = i := by
  cases i <;> rfl

theorem matchWord_injective (m n : Mnemonic) (h : matchWord m = matchWord n) : m = n := by
  cases m <;> cases n <;> first | rfl | exact absurd h (by decide)

/-- A word selects a row exactly when its masked value is the row's match (rule R74). -/
theorem selectRow_eq_some (w : Word) (m : Mnemonic) : selectRow w = some m ↔ w &&& decodeMask = matchWord m := by
  constructor
  · intro h
    simp only [selectRow] at h
    split_ifs at h <;> (cases h; assumption)
  · intro h
    simp only [selectRow, h]
    cases m <;> decide

theorem selectRow_eq_none (w : Word) : selectRow w = none ↔ ∀ m, w &&& decodeMask ≠ matchWord m := by
  constructor
  · intro h m e
    rw [(selectRow_eq_some w m).2 e] at h
    cases h
  · intro h
    cases e : selectRow w with
    | none => rfl
    | some m => exact absurd ((selectRow_eq_some w m).1 e) (h m)

/-- The four bytes of a word, joined again in the same order, are the word. -/
theorem wordOfBytes_bytesOfWord (order : ByteOrder) (w : Word) :
    ∃ b0 b1 b2 b3, bytesOfWord order w = [b0, b1, b2, b3] ∧ wordOfBytes order b0 b1 b2 b3 = w := by
  have key : byteOfWord w 0 ++ byteOfWord w 1 ++ byteOfWord w 2 ++ byteOfWord w 3 = w := by
    ext i hi
    simp only [byteOfWord, BitVec.getElem_append]
    interval_cases i <;> simp [BitVec.getLsbD_eq_getElem]
  cases order with
  | bigEndian => exact ⟨_, _, _, _, rfl, key⟩
  | littleEndian => exact ⟨_, _, _, _, rfl, key⟩

end Sys2Proof
end

