-- ==== Sys2Proof/Laws/Element.lean ====
section
/-! SUPPORT. The element format, its exact values, and the branches of the element function. -/

namespace Sys2Proof.Machine

theorem expOf_lt (x : Word) : expOf x < 256 := (x.extractLsb' 23 8).isLt

theorem fracOf_lt (x : Word) : fracOf x < 2 ^ 23 := (x.extractLsb' 0 23).isLt

/-- An element's number from its sign, exponent and fraction (rule R12). -/
theorem toNat_element (x : Word) : x.toNat = (signOf x).toNat * 2 ^ 31 + expOf x * 2 ^ 23 + fracOf x := by
  have h := x.isLt
  have hs : (signOf x).toNat = x.toNat / 2 ^ 31 := by
    unfold signOf
    rw [BitVec.getLsbD, Nat.testBit_eq_decide_div_mod_eq]
    have : x.toNat / 2 ^ 31 < 2 := by omega
    by_cases e : x.toNat / 2 ^ 31 % 2 = 1 <;> simp only [e, decide_true, decide_false, Bool.toNat_true, Bool.toNat_false] <;>
      omega
  have he : expOf x = x.toNat / 2 ^ 23 % 2 ^ 8 := by
    simp [expOf, BitVec.extractLsb'_toNat, Nat.shiftRight_eq_div_pow]
  have hf : fracOf x = x.toNat % 2 ^ 23 := by
    simp [fracOf, BitVec.extractLsb'_toNat]
  rw [hs, he, hf]
  omega

/-- The two halves of a packed element below its sign: exponent and fraction (rule R114). -/
theorem toNat_packElement (sign : Bool) (e : Int) (sig : Nat) :
    (packElement sign e sig).toNat =
      sign.toNat * 2 ^ 31 + (BitVec.ofInt 8 (e + 127)).toNat * 2 ^ 23 + (sig - 2 ^ 23) % 2 ^ 23 := by
  show (BitVec.ofBool sign ++ BitVec.ofInt 8 (e + 127) ++ BitVec.ofNat 23 (sig - 2 ^ 23)).toNat = _
  rw [BitVec.toNat_append, BitVec.toNat_append, ← Nat.shiftLeft_add_eq_or_of_lt (BitVec.ofNat 23 (sig - 2 ^ 23)).isLt,
    ← Nat.shiftLeft_add_eq_or_of_lt (BitVec.ofInt 8 (e + 127)).isLt]
  simp only [Nat.shiftLeft_eq, BitVec.toNat_ofNat, BitVec.toNat_ofBool]
  omega

theorem two_pow_300 : (2 : ℚ) ^ 300 = 2 ^ 150 * 2 ^ 150 := by rw [← pow_add]

/-- The fixed-point value of an element is its rational value in units of `2^-300` (rule R12). -/
theorem elemVal_eq_fixedVal (x : Word) (h : expOf x ≠ 0) : elemVal x = (fixedVal x : ℚ) / 2 ^ 300 := by
  have h2 : (2 : ℚ) ^ ((expOf x : ℤ) - 127) = 2 ^ (expOf x) / 2 ^ 127 := by
    rw [zpow_sub₀ (by norm_num)]
    norm_cast
  simp only [elemVal, h, if_false, fixedVal, significand, signedInt, h2, two_pow_300]
  cases signOf x <;> simp [pow_add] <;> ring

/-- The fixed-point product is the rational product in units of `2^-300` (rule R110). -/
theorem elemVal_mul_eq_fixedProduct (a b : Word) (ha : expOf a ≠ 0) (hb : expOf b ≠ 0) :
    elemVal a * elemVal b = (fixedProduct a b : ℚ) / 2 ^ 300 := by
  have h2 (x : Word) : (2 : ℚ) ^ ((expOf x : ℤ) - 127) = 2 ^ (expOf x) / 2 ^ 127 := by
    rw [zpow_sub₀ (by norm_num)]
    norm_cast
  simp only [elemVal, ha, hb, if_false, fixedProduct, significand, signedInt, h2, two_pow_300]
  cases signOf a <;> cases signOf b <;> simp [pow_add] <;> ring

/-- The addend is the rational addend in units of `2^-300` (rules R112, R113). -/
theorem addend_eq (op : Op) (d : Word) :
    (if subtracts op then -elemVal d else elemVal d) = (addend op d : ℚ) / 2 ^ 300 := by
  by_cases h : expOf d = 0
  · simp [addend, h, elemVal]
  · cases hs : subtracts op <;> simp [addend, h, hs, elemVal_eq_fixedVal d h, neg_div]

/-- The sum of rule R113 in units of `2^-300`, from the product in those units. -/
theorem sumWith_eq (op : Op) (P : ℚ) (V : Int) (d : Word) (h : P = (V : ℚ) / 2 ^ 300) :
    sumWith op P d = (V + addend op d : ℤ) / 2 ^ 300 := by
  rw [sumWith, addend_eq, h]
  push_cast
  ring

/-- The product of the element function is the rational product where it is exact (rules R108, R110). -/
theorem product_value_exact (cfg : Config) (mode : RoundingMode) (a b : Word) (h : cfg.productRounding = .exact) :
    elemVal a * elemVal b = ((product cfg mode a b).value : ℚ) / 2 ^ 300 := by
  by_cases ha : expOf a = 0
  · simp [product, zeroMultiplicand, ha, elemVal]
  · by_cases hb : expOf b = 0
    · simp [product, zeroMultiplicand, hb, elemVal]
    · rw [elemVal_mul_eq_fixedProduct a b ha hb]
      simp [product, zeroMultiplicand, ha, hb, h]

/-- The branch of rule R109. -/
theorem elem_specialMultiplicand (cfg : Config) (op : Op) (isVector : Bool) (mode : RoundingMode) (a b d free : Word)
    (ha : expOf a ≠ 0) (hb : expOf b ≠ 0) (h : expOf a = 255 ∨ expOf b = 255) :
    elem cfg op isVector mode a b d free =
      endedResult (invalidInput cfg isVector a b d) (specialProductResult cfg op (productSign a b)) := by
  have : (!zeroMultiplicand a b && (isInfNaN a || isInfNaN b)) = true := by
    simpa [zeroMultiplicand, isInfNaN, ha, hb] using h
  simp only [elem, this, if_true]

/-- A product that is not special (rules R108, R110). -/
def plainProduct (a b : Word) : Prop := expOf a = 0 ∨ expOf b = 0 ∨ (expOf a ≠ 255 ∧ expOf b ≠ 255)

theorem not_special_of_plainProduct (a b : Word) (h : plainProduct a b) :
    (!zeroMultiplicand a b && (isInfNaN a || isInfNaN b)) = false := by
  simp only [plainProduct, zeroMultiplicand, isInfNaN] at *
  by_cases h1 : expOf a = 0 <;> by_cases h2 : expOf b = 0 <;> simp_all

/-- The branch of rule R111. -/
theorem elem_specialAddend (cfg : Config) (op : Op) (isVector : Bool) (mode : RoundingMode) (a b d free : Word)
    (h : plainProduct a b) (hd : expOf d = 255) :
    elem cfg op isVector mode a b d free =
      endedResult (invalidInput cfg isVector a b d) (specialAddendResult op (signOf d)) := by
  have hi : isInfNaN d = true := by simp [isInfNaN, hd]
  simp only [elem, not_special_of_plainProduct a b h, hi, if_true, Bool.false_eq_true, if_false]

/-- The branch of rule R113. -/
theorem elem_sum (cfg : Config) (op : Op) (isVector : Bool) (mode : RoundingMode) (a b d free : Word)
    (h : plainProduct a b) (hd : expOf d ≠ 255) :
    elem cfg op isVector mode a b d free =
      negateIf (negates op)
        (if (product cfg mode a b).value + addend op d = 0 then
          zeroResult mode (invalidInput cfg isVector a b d) (product cfg mode a b).inexact (productSign a b) (addendSign op d)
        else nonzeroResult cfg mode (invalidInput cfg isVector a b d) (product cfg mode a b).inexact
          ((product cfg mode a b).value + addend op d) free) := by
  have hi : isInfNaN d = false := by simp [isInfNaN, hd]
  simp only [elem, not_special_of_plainProduct a b h, hi, Bool.false_eq_true, if_false]

end Sys2Proof.Machine
end

