-- ==== Sys2Proof/Laws/State.lean ====
section
/-! SUPPORT. One lemma per field per update of the state, and the laws of the register file. -/

namespace Sys2Proof.Machine

@[simp] theorem State.writeGpr_cfg (s : State) (r : RegNum) (v : DWord) : (s.writeGpr r v).cfg = s.cfg := rfl
@[simp] theorem State.writeGpr_gpr (s : State) (r : RegNum) (v : DWord) : (s.writeGpr r v).gpr = s.gpr.set r.toNat v r.isLt := rfl
@[simp] theorem State.writeGpr_pc (s : State) (r : RegNum) (v : DWord) : (s.writeGpr r v).pc = s.pc := rfl
@[simp] theorem State.writeGpr_spefscr (s : State) (r : RegNum) (v : DWord) : (s.writeGpr r v).spefscr = s.spefscr := rfl
@[simp] theorem State.writeGpr_msr (s : State) (r : RegNum) (v : DWord) : (s.writeGpr r v).msr = s.msr := rfl
@[simp] theorem State.writeGpr_srr0 (s : State) (r : RegNum) (v : DWord) : (s.writeGpr r v).srr0 = s.srr0 := rfl
@[simp] theorem State.writeGpr_srr1 (s : State) (r : RegNum) (v : DWord) : (s.writeGpr r v).srr1 = s.srr1 := rfl
@[simp] theorem State.writeGpr_esr (s : State) (r : RegNum) (v : DWord) : (s.writeGpr r v).esr = s.esr := rfl
@[simp] theorem State.writeGpr_ivpr (s : State) (r : RegNum) (v : DWord) : (s.writeGpr r v).ivpr = s.ivpr := rfl
@[simp] theorem State.writeGpr_ivor33 (s : State) (r : RegNum) (v : DWord) : (s.writeGpr r v).ivor33 = s.ivor33 := rfl
@[simp] theorem State.writeGpr_ivor34 (s : State) (r : RegNum) (v : DWord) : (s.writeGpr r v).ivor34 = s.ivor34 := rfl
@[simp] theorem State.writeGpr_mem (s : State) (r : RegNum) (v : DWord) : (s.writeGpr r v).mem = s.mem := rfl
@[simp] theorem State.writeGpr_draws (s : State) (r : RegNum) (v : DWord) : (s.writeGpr r v).draws = s.draws := rfl
@[simp] theorem State.writeGpr_raised (s : State) (r : RegNum) (v : DWord) : (s.writeGpr r v).raised = s.raised := rfl

@[simp] theorem State.advancePc_cfg (s : State) : (s.advancePc).cfg = s.cfg := rfl
@[simp] theorem State.advancePc_gpr (s : State) : (s.advancePc).gpr = s.gpr := rfl
@[simp] theorem State.advancePc_pc (s : State) : (s.advancePc).pc = s.pc + 4#32 := rfl
@[simp] theorem State.advancePc_spefscr (s : State) : (s.advancePc).spefscr = s.spefscr := rfl
@[simp] theorem State.advancePc_msr (s : State) : (s.advancePc).msr = s.msr := rfl
@[simp] theorem State.advancePc_srr0 (s : State) : (s.advancePc).srr0 = s.srr0 := rfl
@[simp] theorem State.advancePc_srr1 (s : State) : (s.advancePc).srr1 = s.srr1 := rfl
@[simp] theorem State.advancePc_esr (s : State) : (s.advancePc).esr = s.esr := rfl
@[simp] theorem State.advancePc_ivpr (s : State) : (s.advancePc).ivpr = s.ivpr := rfl
@[simp] theorem State.advancePc_ivor33 (s : State) : (s.advancePc).ivor33 = s.ivor33 := rfl
@[simp] theorem State.advancePc_ivor34 (s : State) : (s.advancePc).ivor34 = s.ivor34 := rfl
@[simp] theorem State.advancePc_mem (s : State) : (s.advancePc).mem = s.mem := rfl
@[simp] theorem State.advancePc_draws (s : State) : (s.advancePc).draws = s.draws := rfl
@[simp] theorem State.advancePc_raised (s : State) : (s.advancePc).raised = s.raised := rfl

@[simp] theorem State.placeWord_cfg (s : State) (w : Word) : (s.placeWord w).cfg = s.cfg := rfl
@[simp] theorem State.placeWord_gpr (s : State) (w : Word) : (s.placeWord w).gpr = s.gpr := rfl
@[simp] theorem State.placeWord_pc (s : State) (w : Word) : (s.placeWord w).pc = s.pc := rfl
@[simp] theorem State.placeWord_spefscr (s : State) (w : Word) : (s.placeWord w).spefscr = s.spefscr := rfl
@[simp] theorem State.placeWord_msr (s : State) (w : Word) : (s.placeWord w).msr = s.msr := rfl
@[simp] theorem State.placeWord_srr0 (s : State) (w : Word) : (s.placeWord w).srr0 = s.srr0 := rfl
@[simp] theorem State.placeWord_srr1 (s : State) (w : Word) : (s.placeWord w).srr1 = s.srr1 := rfl
@[simp] theorem State.placeWord_esr (s : State) (w : Word) : (s.placeWord w).esr = s.esr := rfl
@[simp] theorem State.placeWord_ivpr (s : State) (w : Word) : (s.placeWord w).ivpr = s.ivpr := rfl
@[simp] theorem State.placeWord_ivor33 (s : State) (w : Word) : (s.placeWord w).ivor33 = s.ivor33 := rfl
@[simp] theorem State.placeWord_ivor34 (s : State) (w : Word) : (s.placeWord w).ivor34 = s.ivor34 := rfl
@[simp] theorem State.placeWord_mem (s : State) (w : Word) : (s.placeWord w).mem = s.mem.writeBytes s.pc (bytesOfWord s.cfg.insnByteOrder w) := rfl
@[simp] theorem State.placeWord_draws (s : State) (w : Word) : (s.placeWord w).draws = s.draws := rfl
@[simp] theorem State.placeWord_raised (s : State) (w : Word) : (s.placeWord w).raised = s.raised := rfl

@[simp] theorem State.enter_cfg (s : State) (r : EntryRegs) : (s.enter r).cfg = s.cfg := rfl
@[simp] theorem State.enter_gpr (s : State) (r : EntryRegs) : (s.enter r).gpr = s.gpr := rfl
@[simp] theorem State.enter_pc (s : State) (r : EntryRegs) : (s.enter r).pc = r.pc := rfl
@[simp] theorem State.enter_spefscr (s : State) (r : EntryRegs) : (s.enter r).spefscr = s.spefscr := rfl
@[simp] theorem State.enter_msr (s : State) (r : EntryRegs) : (s.enter r).msr = r.msr := rfl
@[simp] theorem State.enter_srr0 (s : State) (r : EntryRegs) : (s.enter r).srr0 = r.srr0 := rfl
@[simp] theorem State.enter_srr1 (s : State) (r : EntryRegs) : (s.enter r).srr1 = r.srr1 := rfl
@[simp] theorem State.enter_esr (s : State) (r : EntryRegs) : (s.enter r).esr = r.esr := rfl
@[simp] theorem State.enter_ivpr (s : State) (r : EntryRegs) : (s.enter r).ivpr = r.ivpr := rfl
@[simp] theorem State.enter_ivor33 (s : State) (r : EntryRegs) : (s.enter r).ivor33 = r.ivor33 := rfl
@[simp] theorem State.enter_ivor34 (s : State) (r : EntryRegs) : (s.enter r).ivor34 = r.ivor34 := rfl
@[simp] theorem State.enter_mem (s : State) (r : EntryRegs) : (s.enter r).mem = s.mem := rfl
@[simp] theorem State.enter_raised (s : State) (r : EntryRegs) : (s.enter r).raised = s.raised := rfl
@[simp] theorem State.enter_draws (s : State) (r : EntryRegs) : (s.enter r).draws = s.draws := rfl

@[simp] theorem State.takeInterrupt_cfg (s : State) (k : Interrupt) : (s.takeInterrupt k).cfg = s.cfg := by
  unfold State.takeInterrupt; split <;> rfl
@[simp] theorem State.takeInterrupt_gpr (s : State) (k : Interrupt) : (s.takeInterrupt k).gpr = s.gpr := by
  unfold State.takeInterrupt; split <;> rfl
@[simp] theorem State.takeInterrupt_spefscr (s : State) (k : Interrupt) : (s.takeInterrupt k).spefscr = s.spefscr := by
  unfold State.takeInterrupt; split <;> rfl
@[simp] theorem State.takeInterrupt_mem (s : State) (k : Interrupt) : (s.takeInterrupt k).mem = s.mem := by
  unfold State.takeInterrupt; split <;> rfl
@[simp] theorem State.takeInterrupt_draws (s : State) (k : Interrupt) : (s.takeInterrupt k).draws = s.draws := by
  unfold State.takeInterrupt; split <;> rfl

theorem State.takeInterrupt_embedded (s : State) (k : Interrupt) (h : s.cfg.trapEntry = .embedded) :
    s.takeInterrupt k = s.enter (embeddedTrapEntry s k.kind) := by
  simp [State.takeInterrupt, h]

theorem State.takeInterrupt_terminal (s : State) (k : Interrupt) (h : s.cfg.trapEntry = .terminal) :
    s.takeInterrupt k = { s with raised := some k } := by
  simp [State.takeInterrupt, h]

theorem State.takeInterrupt_custom (s : State) (k : Interrupt) (n : Nat) (h : s.cfg.trapEntry = .custom n) :
    s.takeInterrupt k = s.enter (customTrapEntry n s k.kind) := by
  simp [State.takeInterrupt, h]

/-- An entry that gives the interrupts distinct vectors is left as it is (rule R211 (c)). -/
theorem separateVectors_of_distinct (entry : TrapEntry) (h : vectorsDistinct entry) : separateVectors entry = entry := by
  funext s kind
  cases kind with
  | data => rfl
  | round => simp [separateVectors, h s]

/-- The vectors are distinct (rule R211 (c)). -/
theorem vectorsDistinct_separateVectors (entry : TrapEntry) : vectorsDistinct (separateVectors entry) := by
  intro s
  simp only [separateVectors]
  split_ifs with h
  · rw [h]; simp
  · exact h

/-- Every entry but an unknown one leaves the vector registers alone (rule R210). -/
theorem State.takeInterrupt_vectors (s : State) (k : Interrupt) (h : s.cfg.trapEntry.isCustom = false) :
    (s.takeInterrupt k).ivpr = s.ivpr ∧ (s.takeInterrupt k).ivor33 = s.ivor33 ∧ (s.takeInterrupt k).ivor34 = s.ivor34 := by
  cases he : s.cfg.trapEntry with
  | embedded => simp [s.takeInterrupt_embedded k he, embeddedTrapEntry]
  | terminal => simp [s.takeInterrupt_terminal k he]
  | custom n => simp [he, TrapEntryChoice.isCustom] at h

@[simp] theorem State.withFetchWord_cfg (s : State) (nbits w : Nat) :
    (s.withFetchWord nbits w).cfg = s.cfg := rfl
@[simp] theorem State.withFetchWord_gpr (s : State) (nbits w : Nat) :
    (s.withFetchWord nbits w).gpr = s.gpr := rfl
@[simp] theorem State.withFetchWord_pc (s : State) (nbits w : Nat) :
    (s.withFetchWord nbits w).pc = s.pc := rfl
@[simp] theorem State.withFetchWord_spefscr (s : State) (nbits w : Nat) :
    (s.withFetchWord nbits w).spefscr = s.spefscr := rfl
@[simp] theorem State.withFetchWord_msr (s : State) (nbits w : Nat) :
    (s.withFetchWord nbits w).msr = s.msr := rfl
@[simp] theorem State.withFetchWord_srr0 (s : State) (nbits w : Nat) :
    (s.withFetchWord nbits w).srr0 = s.srr0 := rfl
@[simp] theorem State.withFetchWord_srr1 (s : State) (nbits w : Nat) :
    (s.withFetchWord nbits w).srr1 = s.srr1 := rfl
@[simp] theorem State.withFetchWord_esr (s : State) (nbits w : Nat) :
    (s.withFetchWord nbits w).esr = s.esr := rfl
@[simp] theorem State.withFetchWord_ivpr (s : State) (nbits w : Nat) :
    (s.withFetchWord nbits w).ivpr = s.ivpr := rfl
@[simp] theorem State.withFetchWord_ivor33 (s : State) (nbits w : Nat) :
    (s.withFetchWord nbits w).ivor33 = s.ivor33 := rfl
@[simp] theorem State.withFetchWord_ivor34 (s : State) (nbits w : Nat) :
    (s.withFetchWord nbits w).ivor34 = s.ivor34 := rfl
@[simp] theorem State.withFetchWord_mem (s : State) (nbits w : Nat) :
    (s.withFetchWord nbits w).mem = s.mem.writeBytes s.pc (bytesOfWord s.cfg.insnByteOrder (BitVec.ofNat 32 (w % 2 ^ nbits))) := rfl
@[simp] theorem State.withFetchWord_raised (s : State) (nbits w : Nat) :
    (s.withFetchWord nbits w).raised = none := rfl
@[simp] theorem State.withFetchWord_draws (s : State) (nbits w : Nat) :
    (s.withFetchWord nbits w).draws = s.draws := rfl

@[simp] theorem State.returnFromInterrupt_cfg (s : State) : (s.returnFromInterrupt).cfg = s.cfg := rfl
@[simp] theorem State.returnFromInterrupt_gpr (s : State) : (s.returnFromInterrupt).gpr = s.gpr := rfl
@[simp] theorem State.returnFromInterrupt_pc (s : State) : (s.returnFromInterrupt).pc = s.srr0.extractLsb' 2 30 ++ 0#2 := rfl
@[simp] theorem State.returnFromInterrupt_spefscr (s : State) : (s.returnFromInterrupt).spefscr = s.spefscr := rfl
@[simp] theorem State.returnFromInterrupt_msr (s : State) : (s.returnFromInterrupt).msr = s.srr1 := rfl
@[simp] theorem State.returnFromInterrupt_srr0 (s : State) : (s.returnFromInterrupt).srr0 = s.srr0 := rfl
@[simp] theorem State.returnFromInterrupt_srr1 (s : State) : (s.returnFromInterrupt).srr1 = s.srr1 := rfl
@[simp] theorem State.returnFromInterrupt_esr (s : State) : (s.returnFromInterrupt).esr = s.esr := rfl
@[simp] theorem State.returnFromInterrupt_ivpr (s : State) : (s.returnFromInterrupt).ivpr = s.ivpr := rfl
@[simp] theorem State.returnFromInterrupt_ivor33 (s : State) : (s.returnFromInterrupt).ivor33 = s.ivor33 := rfl
@[simp] theorem State.returnFromInterrupt_ivor34 (s : State) : (s.returnFromInterrupt).ivor34 = s.ivor34 := rfl
@[simp] theorem State.returnFromInterrupt_mem (s : State) : (s.returnFromInterrupt).mem = s.mem := rfl
@[simp] theorem State.returnFromInterrupt_draws (s : State) : (s.returnFromInterrupt).draws = s.draws := rfl
@[simp] theorem State.returnFromInterrupt_raised (s : State) : (s.returnFromInterrupt).raised = s.raised := rfl

@[simp] theorem State.launch_cfg (s : State) (a : Word) (p : List Byte) : (s.launch a p).cfg = s.cfg := rfl
@[simp] theorem State.launch_gpr (s : State) (a : Word) (p : List Byte) : (s.launch a p).gpr = s.gpr := rfl
@[simp] theorem State.launch_pc (s : State) (a : Word) (p : List Byte) : (s.launch a p).pc = a := rfl
@[simp] theorem State.launch_spefscr (s : State) (a : Word) (p : List Byte) : (s.launch a p).spefscr = s.spefscr := rfl
@[simp] theorem State.launch_msr (s : State) (a : Word) (p : List Byte) : (s.launch a p).msr = s.msr := rfl
@[simp] theorem State.launch_srr0 (s : State) (a : Word) (p : List Byte) : (s.launch a p).srr0 = s.srr0 := rfl
@[simp] theorem State.launch_srr1 (s : State) (a : Word) (p : List Byte) : (s.launch a p).srr1 = s.srr1 := rfl
@[simp] theorem State.launch_esr (s : State) (a : Word) (p : List Byte) : (s.launch a p).esr = s.esr := rfl
@[simp] theorem State.launch_ivpr (s : State) (a : Word) (p : List Byte) : (s.launch a p).ivpr = s.ivpr := rfl
@[simp] theorem State.launch_ivor33 (s : State) (a : Word) (p : List Byte) : (s.launch a p).ivor33 = s.ivor33 := rfl
@[simp] theorem State.launch_ivor34 (s : State) (a : Word) (p : List Byte) : (s.launch a p).ivor34 = s.ivor34 := rfl
@[simp] theorem State.launch_mem (s : State) (a : Word) (p : List Byte) : (s.launch a p).mem = s.mem.writeBytes a p := rfl
@[simp] theorem State.launch_draws (s : State) (a : Word) (p : List Byte) : (s.launch a p).draws = s.draws := rfl
@[simp] theorem State.launch_raised (s : State) (a : Word) (p : List Byte) : (s.launch a p).raised = none := rfl

@[simp] theorem State.applyEffect_cfg (s : State) (rD : RegNum) (e : Effect) : (s.applyEffect rD e).cfg = s.cfg := by
  cases h : e.dest <;> simp [State.applyEffect, h]
@[simp] theorem State.applyEffect_pc (s : State) (rD : RegNum) (e : Effect) : (s.applyEffect rD e).pc = s.pc := by
  cases h : e.dest <;> simp [State.applyEffect, h]
@[simp] theorem State.applyEffect_msr (s : State) (rD : RegNum) (e : Effect) : (s.applyEffect rD e).msr = s.msr := by
  cases h : e.dest <;> simp [State.applyEffect, h]
@[simp] theorem State.applyEffect_srr0 (s : State) (rD : RegNum) (e : Effect) : (s.applyEffect rD e).srr0 = s.srr0 := by
  cases h : e.dest <;> simp [State.applyEffect, h]
@[simp] theorem State.applyEffect_srr1 (s : State) (rD : RegNum) (e : Effect) : (s.applyEffect rD e).srr1 = s.srr1 := by
  cases h : e.dest <;> simp [State.applyEffect, h]
@[simp] theorem State.applyEffect_esr (s : State) (rD : RegNum) (e : Effect) : (s.applyEffect rD e).esr = s.esr := by
  cases h : e.dest <;> simp [State.applyEffect, h]
@[simp] theorem State.applyEffect_ivpr (s : State) (rD : RegNum) (e : Effect) : (s.applyEffect rD e).ivpr = s.ivpr := by
  cases h : e.dest <;> simp [State.applyEffect, h]
@[simp] theorem State.applyEffect_ivor33 (s : State) (rD : RegNum) (e : Effect) : (s.applyEffect rD e).ivor33 = s.ivor33 := by
  cases h : e.dest <;> simp [State.applyEffect, h]
@[simp] theorem State.applyEffect_ivor34 (s : State) (rD : RegNum) (e : Effect) : (s.applyEffect rD e).ivor34 = s.ivor34 := by
  cases h : e.dest <;> simp [State.applyEffect, h]
@[simp] theorem State.applyEffect_mem (s : State) (rD : RegNum) (e : Effect) : (s.applyEffect rD e).mem = s.mem := by
  cases h : e.dest <;> simp [State.applyEffect, h]

@[simp] theorem State.applyEffect_raised (s : State) (rD : RegNum) (e : Effect) :
    (s.applyEffect rD e).raised = s.raised := by
  cases h : e.dest <;> simp [State.applyEffect, h]

@[simp] theorem State.applyEffect_spefscr (s : State) (rD : RegNum) (e : Effect) :
    (s.applyEffect rD e).spefscr = e.spefscr := rfl

@[simp] theorem State.applyEffect_draws (s : State) (rD : RegNum) (e : Effect) :
    (s.applyEffect rD e).draws = s.draws + 1 := by
  cases h : e.dest <;> simp [State.applyEffect]

@[simp] theorem State.applyEffect_gpr_none (s : State) (rD : RegNum) (e : Effect) (h : e.dest = none) :
    (s.applyEffect rD e).gpr = s.gpr := by
  simp [State.applyEffect, h]

@[simp] theorem State.applyEffect_gpr_some (s : State) (rD : RegNum) (e : Effect) (v : DWord) (h : e.dest = some v) :
    (s.applyEffect rD e).gpr = (s.writeGpr rD v).gpr := by
  simp [State.applyEffect, h]

/-- A register reads as the register file says. -/
theorem State.readGpr_congr (s t : State) (r : RegNum) (h : s.gpr = t.gpr) : s.readGpr r = t.readGpr r := by
  simp [State.readGpr, h]

@[simp] theorem State.readGpr_writeGpr_same (s : State) (r : RegNum) (v : DWord) : (s.writeGpr r v).readGpr r = v := by
  simp [State.readGpr, State.writeGpr]

theorem State.readGpr_writeGpr_ne (s : State) (r q : RegNum) (v : DWord) (h : q ≠ r) :
    (s.writeGpr r v).readGpr q = s.readGpr q := by
  have hne : r.toNat ≠ q.toNat := fun e => h (BitVec.eq_of_toNat_eq e.symm)
  simp [State.readGpr, State.writeGpr, hne]

@[simp] theorem State.advancePc_readGpr (s : State) (r : RegNum) : s.advancePc.readGpr r = s.readGpr r := rfl

@[simp] theorem State.takeInterrupt_readGpr (s : State) (k : Interrupt) (r : RegNum) :
    (s.takeInterrupt k).readGpr r = s.readGpr r :=
  State.readGpr_congr _ _ _ (s.takeInterrupt_gpr k)

@[simp] theorem State.placeWord_readGpr (s : State) (w : Word) (r : RegNum) : (s.placeWord w).readGpr r = s.readGpr r := rfl

/-- The destination register at the end of an instruction: written, or not updated. -/
theorem State.applyEffect_readGpr_dest (s : State) (rD : RegNum) (e : Effect) :
    (s.applyEffect rD e).readGpr rD = e.dest.getD (s.readGpr rD) := by
  cases h : e.dest with
  | none => exact State.readGpr_congr _ _ _ (by simp [h])
  | some v =>
    rw [State.readGpr_congr _ (s.writeGpr rD v) _ (State.applyEffect_gpr_some s rD e v h)]
    simp

/-- Every other register keeps its value. -/
theorem State.applyEffect_readGpr_ne (s : State) (rD : RegNum) (e : Effect) (r : RegNum) (hr : r ≠ rD) :
    (s.applyEffect rD e).readGpr r = s.readGpr r := by
  cases h : e.dest with
  | none => exact State.readGpr_congr _ _ _ (by simp [h])
  | some v =>
    rw [State.readGpr_congr _ (s.writeGpr rD v) _ (State.applyEffect_gpr_some s rD e v h)]
    exact State.readGpr_writeGpr_ne s rD r v hr

end Sys2Proof.Machine
end

