-- ==== Sys2Proof/Laws/Flags.lean ====
section
/-! SUPPORT. Reading a bit of SPEFSCR or MSR after each way of writing them. -/

namespace Sys2Proof.Machine

theorem getLsbD_putBit (w : Word) (n m : Nat) (b : Bool) (hn : n < 32) :
    (putBit w n b).getLsbD m = if m = n then b else w.getLsbD m := by
  have key : ((1#32 : Word) <<< n).getLsbD m = decide (m = n) := by
    rw [BitVec.getLsbD_shiftLeft]
    by_cases h : m < n
    · have : m ≠ n := by omega
      simp [h, this]
    · by_cases e : m = n
      · subst e; simp [hn]
      · have h1 : m - n ≠ 0 := by omega
        have : (1#32 : Word).getLsbD (m - n) = false := by
          simp [BitVec.getLsbD_one, h1]
        simp [this, e]
  unfold putBit
  cases b
  · by_cases h32 : m < 32
    · by_cases e : m = n <;>
        simp only [BitVec.getLsbD_and, BitVec.getLsbD_not, key, e, h32, hn, Bool.false_eq_true, if_false, if_true] <;> simp [hn]
    · have : m ≠ n := by omega
      have hw : w.getLsbD m = false := BitVec.getLsbD_of_ge _ _ (by omega)
      simp [this, hw]
  · by_cases e : m = n <;> simp only [BitVec.getLsbD_or, key, e, if_true, if_false] <;> simp [hn]

theorem ScrBit.number_range (b : ScrBit) : 32 ≤ b.number ∧ b.number ≤ 63 := by
  cases b <;> decide

theorem ScrBit.number_inj (b c : ScrBit) (h : b.number = c.number) : b = c := by
  cases b <;> cases c <;> first | rfl | (exact absurd h (by decide))

/-- A bit of SPEFSCR after one bit is written. -/
theorem scrGet_scrSet (b c : ScrBit) (v : Bool) (w : Word) :
    scrGet c (scrSet b v w) = if c = b then v else scrGet c w := by
  have hb := b.number_range
  have hc := c.number_range
  unfold scrGet scrSet
  rw [getLsbD_putBit _ _ _ _ (by omega)]
  by_cases e : c = b
  · simp [e]
  · have : 63 - c.number ≠ 63 - b.number := fun h => e (ScrBit.number_inj c b (by omega))
    simp [e, this]

/-- A bit of SPEFSCR after listed bits are drawn. -/
theorem scrGet_scrDraw (free : Word) (bits : List ScrBit) (c : ScrBit) (w : Word) :
    scrGet c (scrDraw free bits w) = if c ∈ bits then scrGet c free else scrGet c w := by
  induction bits generalizing w with
  | nil => rfl
  | cons b rest ih =>
    show scrGet c (scrDraw free rest (scrSet b (scrGet b free) w)) = _
    rw [ih, scrGet_scrSet]
    by_cases hr : c ∈ rest
    · simp [hr]
    · by_cases e : c = b <;> simp [hr, e]

/-- A bit of SPEFSCR after a status bit is "set appropriately" (rule R121). -/
theorem scrGet_scrStatus (cfg : Config) (b c : ScrBit) (cond : Bool) (w : Word) :
    scrGet c (scrStatus cfg b cond w) =
      if c = b then cond || (!cfg.statusBitsAssigned && scrGet b w) else scrGet c w := by
  unfold scrStatus
  cases ha : cfg.statusBitsAssigned <;> cases cond <;> by_cases e : c = b <;> simp [scrGet_scrSet, e]

theorem scrGet_putHighGuard (g x : Bool) (c : ScrBit) (w : Word) :
    scrGet c (putHighGuard g x w) = if c = .fxh then x else if c = .fgh then g else scrGet c w := by
  simp [putHighGuard, scrGet_scrSet]

theorem scrGet_putLowGuard (g x : Bool) (c : ScrBit) (w : Word) :
    scrGet c (putLowGuard g x w) = if c = .fx then x else if c = .fg then g else scrGet c w := by
  simp [putLowGuard, scrGet_scrSet]

theorem scrGet_clearHighGuardOrDraw (clear : Bool) (free : Word) (c : ScrBit) (w : Word) :
    scrGet c (clearHighGuardOrDraw clear free w) =
      if c = .fgh ∨ c = .fxh then !clear && scrGet c free else scrGet c w := by
  cases clear
  · simp [clearHighGuardOrDraw, drawHighGuard, scrGet_scrDraw]
  · by_cases h1 : c = .fxh <;> by_cases h2 : c = .fgh <;>
      simp [clearHighGuardOrDraw, scrGet_putHighGuard, h1, h2]

theorem scrGet_clearLowGuardOrDraw (clear : Bool) (free : Word) (c : ScrBit) (w : Word) :
    scrGet c (clearLowGuardOrDraw clear free w) =
      if c = .fg ∨ c = .fx then !clear && scrGet c free else scrGet c w := by
  cases clear
  · simp [clearLowGuardOrDraw, drawLowGuard, scrGet_scrDraw]
  · by_cases h1 : c = .fx <;> by_cases h2 : c = .fg <;>
      simp [clearLowGuardOrDraw, scrGet_putLowGuard, h1, h2]

theorem MsrBit.number_inj (b c : MsrBit) (h : b.number = c.number) : b = c := by
  cases b <;> cases c <;> first | rfl | (exact absurd h (by decide))

theorem msrGet_msrClear (b c : MsrBit) (w : Word) : msrGet c (msrClear b w) = if c = b then false else msrGet c w := by
  have hb : 32 ≤ b.number ∧ b.number ≤ 63 := by cases b <;> decide
  have hc : 32 ≤ c.number ∧ c.number ≤ 63 := by cases c <;> decide
  unfold msrGet msrClear
  rw [getLsbD_putBit _ _ _ _ (by omega)]
  by_cases e : c = b
  · simp [e]
  · have : 63 - c.number ≠ 63 - b.number := fun h => e (MsrBit.number_inj c b (by omega))
    simp [e, this]

/-- An MSR bit after the entry of an interrupt (rule R210). -/
theorem msrGet_msrOnEntry (c : MsrBit) (w : Word) :
    msrGet c (msrOnEntry w) = if c ∈ msrClearedOnEntry then false else msrGet c w := by
  cases c <;> simp [msrOnEntry, msrClearedOnEntry, msrGet_msrClear]

end Sys2Proof.Machine
end

