-- ==== Sys2Proof/Laws/Memory.lean ====
section
/-! SUPPORT. The laws of instruction memory: reads after writes, and that every operation keeps the canonical form. -/

namespace Sys2Proof.Machine

@[simp] theorem Memory.read_nil (a : Word) : Memory.read [] a = none := rfl

theorem Memory.read_write_same (m : Memory) (a : Word) (v : Byte) : (m.write a v).read a = some v := by
  induction m with
  | nil => simp [Memory.write, Memory.read]
  | cons c rest ih =>
    unfold Memory.write
    split
    · simp [Memory.read]
    · split
      · simp [Memory.read]
      · rename_i h1 h2
        have : c.1 ≠ a.toNat := fun e => h2 e.symm
        simp [Memory.read, this, ih]

theorem Memory.read_write_ne (m : Memory) (a b : Word) (v : Byte) (h : b ≠ a) : (m.write a v).read b = m.read b := by
  have hne : a.toNat ≠ b.toNat := fun e => h (BitVec.eq_of_toNat_eq e.symm)
  induction m with
  | nil => simp [Memory.write, Memory.read, hne]
  | cons c rest ih =>
    unfold Memory.write
    split
    · simp [Memory.read, hne]
    · split
      · rename_i h1 h2
        have : c.1 ≠ b.toNat := fun e => hne (h2.trans e)
        simp [Memory.read, hne, this]
      · simp [Memory.read, ih]

/-- Every cell of a written memory is the new one or an old one. -/
theorem Memory.mem_write (m : Memory) (a : Word) (v : Byte) (c : Host.Cell) (h : c ∈ m.write a v) :
    c = (a.toNat, v) ∨ c ∈ m := by
  induction m with
  | nil => simpa [Memory.write] using h
  | cons d rest ih =>
    unfold Memory.write at h
    split at h
    · simpa using h
    · split at h
      · simp only [List.mem_cons] at h ⊢; tauto
      · simp only [List.mem_cons] at h ⊢
        rcases h with h | h
        · exact .inr (.inl h)
        · rcases ih h with h | h
          · exact .inl h
          · exact .inr (.inr h)

theorem Memory.write_wf (m : Memory) (a : Word) (v : Byte) (h : m.wf) : (m.write a v).wf := by
  obtain ⟨hs, hb⟩ := h
  refine ⟨?_, ?_⟩
  · induction m with
    | nil => simp [Memory.write]
    | cons c rest ih =>
      rw [List.pairwise_cons] at hs
      unfold Memory.write
      split
      · rename_i hlt
        refine List.pairwise_cons.2 ⟨?_, List.pairwise_cons.2 hs⟩
        intro x hx
        rcases List.mem_cons.1 hx with rfl | hx
        · exact hlt
        · exact hlt.trans (hs.1 x hx)
      · split
        · rename_i _ heq
          exact List.pairwise_cons.2 ⟨fun x hx => heq ▸ hs.1 x hx, hs.2⟩
        · rename_i h1 h2
          refine List.pairwise_cons.2 ⟨?_, ih hs.2 (fun x hx => hb x (List.mem_cons_of_mem _ hx))⟩
          intro x hx
          rcases Memory.mem_write rest a v x hx with rfl | hx
          · simp only; omega
          · exact hs.1 x hx
  · intro c hc
    rcases Memory.mem_write m a v c hc with rfl | hc
    · exact a.isLt
    · exact hb c hc

theorem Memory.writeBytes_wf (m : Memory) (a : Word) (bytes : List Byte) (h : m.wf) : (m.writeBytes a bytes).wf := by
  induction bytes generalizing m a with
  | nil => exact h
  | cons b rest ih => exact ih _ _ (Memory.write_wf m a b h)

theorem State.placeWord_wf (s : State) (w : Word) (h : s.mem.wf) : (s.placeWord w).mem.wf :=
  Memory.writeBytes_wf _ _ _ h

theorem State.launch_wf (s : State) (a : Word) (p : List Byte) (h : s.mem.wf) : (s.launch a p).mem.wf :=
  Memory.writeBytes_wf _ _ _ h

theorem State.reset_mem_wf : State.reset.mem.wf := by decide

/-- The bytes at an address after four bytes were placed there. -/
theorem Memory.read_writeBytes_four (m : Memory) (a : Word) (b0 b1 b2 b3 : Byte) :
    (m.writeBytes a [b0, b1, b2, b3]).read a = some b0 ∧
    (m.writeBytes a [b0, b1, b2, b3]).read (a + 1#32) = some b1 ∧
    (m.writeBytes a [b0, b1, b2, b3]).read (a + 2#32) = some b2 ∧
    (m.writeBytes a [b0, b1, b2, b3]).read (a + 3#32) = some b3 := by
  have e2 : a + 1#32 + 1#32 = a + 2#32 := by bv_omega
  simp only [Memory.writeBytes, e2]
  have h (i j : Word) (hij : i ≠ j) : a + i ≠ a + j := fun e => hij (by simpa using e)
  have h0 (j : Word) (hj : 0 ≠ j) : a ≠ a + j := by simpa using h 0 j hj
  have e3' : a + 2#32 + 1#32 = a + 3#32 := by bv_omega
  rw [e3']
  refine ⟨?_, ?_, ?_, ?_⟩
  · rw [Memory.read_write_ne _ _ _ _ (h0 3#32 (by decide)), Memory.read_write_ne _ _ _ _ (h0 2#32 (by decide)),
      Memory.read_write_ne _ _ _ _ (h0 1#32 (by decide)), Memory.read_write_same]
  · rw [Memory.read_write_ne _ _ _ _ (h 1#32 3#32 (by decide)), Memory.read_write_ne _ _ _ _ (h 1#32 2#32 (by decide)),
      Memory.read_write_same]
  · rw [Memory.read_write_ne _ _ _ _ (h 2#32 3#32 (by decide)), Memory.read_write_same]
  · rw [Memory.read_write_same]

end Sys2Proof.Machine
end

