-- ==== Sys2Proof/Laws/Exec.lean ====
section
/-! SUPPORT. What an instruction and a step can do, said once. -/

namespace Sys2Proof.Machine

/-- Every instruction is its effect, behind the checks of rules R3 and R214. -/
theorem exec_eq (i : Instr) (s : State) : exec i s = s.whenExecutable i.isVector (s.finish i.rD (s.effect i)) := by
  cases i <;> rfl

/-- An executable instruction answers the state its effect leads to. -/
theorem exec_of_executable (i : Instr) (s : State) (h : s.executable i.isVector) :
    exec i s = .next (s.finish i.rD (s.effect i)) := by
  rw [exec_eq]
  simp [State.whenExecutable, h.1, h.2]

/-- What an instruction that answers a next state did. -/
theorem exec_eq_next (i : Instr) (s t : State) (h : exec i s = .next t) :
    s.executable i.isVector ∧ t = s.finish i.rD (s.effect i) := by
  rw [exec_eq] at h
  unfold State.whenExecutable at h
  split_ifs at h with h1 h2
  cases h
  exact ⟨⟨by simpa using h1, by simpa using h2⟩, rfl⟩

/-- The three ways an instruction ends (rule R200). -/
theorem State.finish_cases (s : State) (rD : RegNum) (e : Effect) :
    (e.raises = none ∧ s.finish rD e = (s.applyEffect rD e).advancePc) ∨
      ∃ k, e.raises = some k ∧ s.finish rD e = (s.applyEffect rD e).takeInterrupt k := by
  cases h : e.raises with
  | none => exact .inl ⟨rfl, by simp [State.finish, h]⟩
  | some k => exact .inr ⟨k, rfl, by simp [State.finish, h]⟩

/-- Executing an instruction leaves the parameters, instruction memory and every register but rD alone. -/
theorem State.finish_frame (s : State) (rD : RegNum) (e : Effect) :
    (s.finish rD e).cfg = s.cfg ∧ (s.finish rD e).mem = s.mem ∧
      (s.finish rD e).spefscr = e.spefscr ∧ (s.finish rD e).readGpr rD = e.dest.getD (s.readGpr rD) ∧
      ∀ r, r ≠ rD → (s.finish rD e).readGpr r = s.readGpr r := by
  rcases s.finish_cases rD e with ⟨_, h⟩ | ⟨k, _, h⟩ <;> rw [h] <;>
    exact ⟨by simp, by simp, by simp,
      by simp [State.applyEffect_readGpr_dest], fun r hr => by simp [State.applyEffect_readGpr_ne _ _ _ _ hr]⟩

/-- The vector registers keep their values unless an unknown entry is taken. -/
theorem State.finish_vectors (s : State) (rD : RegNum) (e : Effect)
    (h : e.raises = none ∨ s.cfg.trapEntry.isCustom = false) :
    (s.finish rD e).ivpr = s.ivpr ∧ (s.finish rD e).ivor33 = s.ivor33 ∧ (s.finish rD e).ivor34 = s.ivor34 := by
  rcases s.finish_cases rD e with ⟨_, hf⟩ | ⟨k, hk, hf⟩ <;> rw [hf]
  · simp
  · have hc : (s.applyEffect rD e).cfg.trapEntry.isCustom = false := by simpa [hk] using h
    simpa using (s.applyEffect rD e).takeInterrupt_vectors k hc

/-- The word placed at `pc` is what the fetch reads (rules R51, R52). -/
theorem fetchWord_placeWord (s : State) (w : Word) : fetchWord (s.placeWord w) = .ok w := by
  obtain ⟨b0, b1, b2, b3, hb, hw⟩ := wordOfBytes_bytesOfWord s.cfg.insnByteOrder w
  obtain ⟨h0, h1, h2, h3⟩ := Memory.read_writeBytes_four s.mem s.pc b0 b1 b2 b3
  simp [fetchWord, hb, h0, h1, h2, h3, hw]

/-- The value of the handler address (rule R210). -/
theorem toNat_handlerAddress (ivpr ivor : Word) :
    (handlerAddress ivpr ivor).toNat = ivpr.toNat / 2 ^ 16 * 2 ^ 16 + ivor.toNat / 2 ^ 4 % 2 ^ 12 * 2 ^ 4 := by
  have h1 : (ivor.extractLsb' 4 12).toNat < 2 ^ 12 := (ivor.extractLsb' 4 12).isLt
  have hp := ivpr.isLt
  show (ivpr.extractLsb' 16 16 ++ ivor.extractLsb' 4 12 ++ 0#4).toNat = _
  rw [BitVec.toNat_append, BitVec.toNat_append, ← Nat.shiftLeft_add_eq_or_of_lt (0#4).isLt,
    ← Nat.shiftLeft_add_eq_or_of_lt h1]
  simp only [BitVec.extractLsb'_toNat, Nat.shiftRight_eq_div_pow, Nat.shiftLeft_eq, BitVec.toNat_ofNat]
  omega

/-- A handler address is a multiple of 4. -/
theorem pcAligned_handlerAddress (ivpr ivor : Word) : pcAligned (handlerAddress ivpr ivor) = true := by
  simp only [pcAligned, toNat_handlerAddress, beq_iff_eq]
  omega

/-- The next instruction of an aligned one is aligned. -/
theorem pcAligned_add_four (pc : Word) (h : pcAligned pc = true) : pcAligned (pc + 4#32) = true := by
  simp only [pcAligned, beq_iff_eq, BitVec.toNat_add, BitVec.toNat_ofNat] at *
  omega

/-- What a step that answers a next state did (rules R51 to R53, R74). -/
theorem step_eq_next (s t : State) (h : step s = .next t) :
    s.raised = none ∧ pcAligned s.pc = true ∧
      ∃ w i, fetchWord s = .ok w ∧ decodeWord w = .ok i ∧ exec i s = .next t := by
  unfold step at h
  split at h
  · cases h
  · rename_i hr
    split at h
    · cases h
    · rename_i ha
      split at h
      · cases h
      · rename_i w hw
        split at h
        · rename_i i hi
          exact ⟨hr, by simpa using ha, w, i, hw, hi, h⟩
        · cases h

/-- The interrupt entry keeps `pc` a multiple of 4 (rules R53, R210). -/
theorem State.pcAligned_takeInterrupt (s : State) (k : Interrupt) (hp : pcAligned s.pc = true) (hh : s.handlersAligned) :
    pcAligned (s.takeInterrupt k).pc = true := by
  cases he : s.cfg.trapEntry with
  | embedded => rw [s.takeInterrupt_embedded k he]; exact pcAligned_handlerAddress _ _
  | terminal => rw [s.takeInterrupt_terminal k he]; exact hp
  | custom n => rw [s.takeInterrupt_custom k n he]; exact hh n he s k.kind

/-- The invariant holds at reset. -/
theorem State.reset_handlersAligned : State.reset.handlersAligned := fun _ h => by cases h

/-- The bits of SPEFSCR no instruction writes (rules R31, R32; the reserved bits are log 9). -/
def unwrittenBits : List ScrBit :=
  [.reserved40, .reserved41, .reserved56, .finxe, .finve, .fdbze, .funfe, .fovfe, .frmcUpper, .frmcLower]

/-- Writing bits that are not `b` leaves `b`. -/
theorem ne_of_unwritten (b c : ScrBit) (hb : b ∈ unwrittenBits) (hc : c ∉ unwrittenBits) : b ≠ c :=
  fun e => hc (e ▸ hb)

theorem scrGet_scrDraw_unwritten (free f : Word) (bits : List ScrBit) (b : ScrBit) (hb : b ∈ unwrittenBits)
    (hbits : ∀ c ∈ bits, c ∉ unwrittenBits) : scrGet b (scrDraw free bits f) = scrGet b f := by
  rw [scrGet_scrDraw, if_neg fun h => hbits b h hb]

theorem scrGet_vecStages_unwritten (cfg : Config) (free f : Word) (h l : ElemResult) (b : ScrBit)
    (hb : b ∈ unwrittenBits) : scrGet b (vecStages cfg free f h l).spefscr = scrGet b f := by
  have n := fun c hc => ne_of_unwritten b c hb hc
  have hu := scrGet_scrDraw_unwritten free f unmentionedBits b hb (by decide)
  simp only [vecStages, apply_ite Effect.spefscr, apply_ite (scrGet b), scrGet_clearLowGuardOrDraw,
    scrGet_clearHighGuardOrDraw, scrGet_putLowGuard, scrGet_putHighGuard, scrGet_scrStatus, scrGet_scrSet, hu,
    n .fg (by decide), n .fx (by decide), n .fgh (by decide), n .fxh (by decide), n .finv (by decide),
    n .finvh (by decide), n .fovf (by decide), n .fovfh (by decide), n .funf (by decide), n .funfh (by decide),
    n .finxs (by decide), or_self, if_false, ite_self]

theorem scrGet_scaStages_unwritten (cfg : Config) (free f : Word) (D : DWord) (l : ElemResult) (b : ScrBit)
    (hb : b ∈ unwrittenBits) : scrGet b (scaStages cfg free f D l).spefscr = scrGet b f := by
  have n := fun c hc => ne_of_unwritten b c hb hc
  have hu := scrGet_scrDraw_unwritten free f (unmentionedBits ++ scalarHighBits) b hb (by decide)
  simp only [scaStages, apply_ite Effect.spefscr, apply_ite (scrGet b), scrGet_clearLowGuardOrDraw,
    scrGet_clearHighGuardOrDraw, scrGet_putLowGuard, scrGet_putHighGuard, scrGet_scrStatus, scrGet_scrSet, hu,
    n .fg (by decide), n .fx (by decide), n .fgh (by decide), n .fxh (by decide), n .finv (by decide),
    n .fovf (by decide), n .funf (by decide), n .finxs (by decide), or_self, if_false, ite_self]

/-- No instruction writes the enables, the rounding mode or a reserved bit (rules R31, R32). -/
theorem scrGet_effect_unwritten (s : State) (i : Instr) (b : ScrBit) (hb : b ∈ unwrittenBits) :
    scrGet b (s.effect i).spefscr = scrGet b s.spefscr := by
  unfold State.effect
  split
  · exact scrGet_vecStages_unwritten _ _ _ _ _ b hb
  · exact scrGet_scaStages_unwritten _ _ _ _ _ b hb

/-- The elements in play of a vector instruction. -/
theorem State.elements_vector (s : State) (i : Instr) (h : i.isVector = true) :
    s.elements i = [s.highResult i, s.lowResult i] := by
  simp [State.elements, h]

/-- The element in play of a scalar instruction. -/
theorem State.elements_scalar (s : State) (i : Instr) (h : i.isVector = false) : s.elements i = [s.lowResult i] := by
  simp [State.elements, h]

@[simp] theorem highElement_joinElements (h l : Word) : highElement (joinElements h l) = h := by
  show (h ++ l).extractLsb' 32 32 = h
  ext i hi
  simp only [BitVec.getElem_extractLsb', BitVec.getLsbD_append]
  have : ¬ 32 + i < 32 := by omega
  simp [this, ← BitVec.getLsbD_eq_getElem]

@[simp] theorem lowElement_joinElements (h l : Word) : lowElement (joinElements h l) = l := by
  show (h ++ l).extractLsb' 0 32 = l
  ext i hi
  simp only [BitVec.getElem_extractLsb', BitVec.getLsbD_append]
  simp [hi, ← BitVec.getLsbD_eq_getElem]

@[simp] theorem highElement_replaceLow (v : DWord) (l : Word) : highElement (replaceLow v l) = highElement v := by
  simp [replaceLow]

@[simp] theorem lowElement_replaceLow (v : DWord) (l : Word) : lowElement (replaceLow v l) = l := by
  simp [replaceLow]

end Sys2Proof.Machine
end

