-- ==== Sys2Proof/Laws/PerInstr.lean ====
section
/-! SUPPORT. Per-instruction laws about the instruction as syntax: every instruction is well formed, and the masked word of
its encoding is the match of its own row of rule R72. -/

namespace Sys2Proof.Laws.MaskedEncoding

/-- The family's statement (rules R72, R74). -/
def Statement (i : Instr) : Prop :=
  i.wellFormed = true ∧ encode i &&& decodeMask = matchWord i.mnemonic

/-- The statement holds of an instruction whose opcode fields give the row's match value. -/
theorem of_opcode (i : Instr) (h : 4 * 2 ^ 26 + (extendedOpcode i.mnemonic).toNat = (matchWord i.mnemonic).toNat) :
    Statement i := by
  have hd := i.rD.isLt
  have ha := i.rA.isLt
  have hb := i.rB.isLt
  have hx := (extendedOpcode i.mnemonic).isLt
  refine ⟨?_, ?_⟩
  · simp only [Instr.wellFormed, Instr.asm, AsmLine.wellFormed, AsmLine.operandCountOk, AsmLine.registersOk]
    simp
    omega
  · apply BitVec.eq_of_toNat_eq
    have hm := toNat_and_decodeMask (encode i)
    have he := toNat_encode i
    omega

theorem evfsmadd (rD rA rB : RegNum) : Statement (.evfsmadd rD rA rB) := of_opcode _ (by simp [Instr.mnemonic, extendedOpcode, matchWord])
theorem evfsmsub (rD rA rB : RegNum) : Statement (.evfsmsub rD rA rB) := of_opcode _ (by simp [Instr.mnemonic, extendedOpcode, matchWord])
theorem evfsnmadd (rD rA rB : RegNum) : Statement (.evfsnmadd rD rA rB) := of_opcode _ (by simp [Instr.mnemonic, extendedOpcode, matchWord])
theorem evfsnmsub (rD rA rB : RegNum) : Statement (.evfsnmsub rD rA rB) := of_opcode _ (by simp [Instr.mnemonic, extendedOpcode, matchWord])
theorem efsmadd (rD rA rB : RegNum) : Statement (.efsmadd rD rA rB) := of_opcode _ (by simp [Instr.mnemonic, extendedOpcode, matchWord])
theorem efsmsub (rD rA rB : RegNum) : Statement (.efsmsub rD rA rB) := of_opcode _ (by simp [Instr.mnemonic, extendedOpcode, matchWord])
theorem efsnmadd (rD rA rB : RegNum) : Statement (.efsnmadd rD rA rB) := of_opcode _ (by simp [Instr.mnemonic, extendedOpcode, matchWord])
theorem efsnmsub (rD rA rB : RegNum) : Statement (.efsnmsub rD rA rB) := of_opcode _ (by simp [Instr.mnemonic, extendedOpcode, matchWord])

end Sys2Proof.Laws.MaskedEncoding
end

