-- ==== Sys2Proof/Tests/Slice0.lean ====
section
/-! SUPPORT. Tests of the model on fixed values, each with its source in spec/, and a witness for the hypotheses of every
obligation that has hypotheses. -/

namespace Sys2Proof.Tests

open Sys2Proof.Machine

set_option Elab.async false

/-- A state at 0x1000 with a given SPEFSCR and some registers; the interrupt vectors are set so that the two handlers differ. -/
def stateWith (spefscr : Word) (regs : List (RegNum × DWord)) : State :=
  regs.foldl (fun s p => s.writeGpr p.1 p.2)
    { State.reset with pc := 0x1000, spefscr := spefscr, ivpr := 0x40010000, ivor33 := 0x210, ivor34 := 0x220 }

/-- rA = r4, rB = r5, rD = r3. -/
def operands (spefscr : Word) (a b d : DWord) : State := stateWith spefscr [(4, a), (5, b), (3, d)]

/-- The state after a step that completed. -/
def nextOf : Result → Option State
  | .next t => some t
  | .fault _ => none
  | .refused _ => none

theorem exists_next (r : Result) (h : (nextOf r).isSome = true) : ∃ t, r = .next t := by
  cases r with
  | next t => exact ⟨t, rfl⟩
  | fault _ => cases h
  | refused _ => cases h

/-- rD (r3), `pc` and SRR0 after an instruction. -/
def after (i : Instr) (s : State) : Option (DWord × Word × Word) :=
  (nextOf (exec i s)).map (fun t => (t.readGpr 3, t.pc, t.srr0))

/-- The eleven flags in the order of 95_test_vectors.md section 2.2. -/
def flags (w : Word) : List Bool :=
  [ScrBit.finvh, .finv, .fovfh, .fovf, .funfh, .funf, .finxs, .fgh, .fxh, .fg, .fx].map (fun b => scrGet b w)

/-- SPEFSCR with listed bits set and the rounding mode of the low two bits. -/
def scrOf (mode : Word) (bits : List ScrBit) : Word := bits.foldl (fun w b => scrSet b true w) mode

/-- A draw of all ones, so that an `any` bit reads 1. -/
def ones : FreeDraw := { spefscr := 0xFFFFFFFF, high := 0xFFFFFFFF, low := 0xFFFFFFFF }

/-! ## Well-formedness (rule R80) -/

theorem test_asm_two_operands_refused : (AsmLine.mk .evfsmadd [3, 4]).wellFormed = false := by decide
theorem test_asm_register_32_refused : (AsmLine.mk .efsmadd [3, 32, 5]).wellFormed = false := by decide
theorem test_asm_register_31_accepted : (AsmLine.mk .efsnmsub [31, 31, 0]).wellFormed = true := by decide

/-! ## Decoding: words written out from Table 2 (rules R71, R72, R82; 95_test_vectors.md section 2.1) -/

-- 000100 00011 00100 00101 01010000010
theorem test_decode_evfsmadd : decodeWord 0b00010000011001000010101010000010#32 = .ok (.evfsmadd 3 4 5) := by decide
-- 000100 00001 11111 00000 01010000011
theorem test_decode_evfsmsub : decodeWord 0b00010000001111110000001010000011#32 = .ok (.evfsmsub 1 31 0) := by decide
-- 000100 00000 00000 11111 01010001010
theorem test_decode_evfsnmadd : decodeWord 0b00010000000000001111101010001010#32 = .ok (.evfsnmadd 0 0 31) := by decide
-- 000100 00011 00100 00101 01010001011
theorem test_decode_evfsnmsub : decodeWord 0b00010000011001000010101010001011#32 = .ok (.evfsnmsub 3 4 5) := by decide
-- 000100 00000 00000 00000 01011000010
theorem test_decode_efsmadd : decodeWord 0b00010000000000000000001011000010#32 = .ok (.efsmadd 0 0 0) := by decide
-- 000100 00011 00100 00101 01011000011
theorem test_decode_efsmsub : decodeWord 0b00010000011001000010101011000011#32 = .ok (.efsmsub 3 4 5) := by decide
-- 000100 00001 11111 00000 01011001010
theorem test_decode_efsnmadd : decodeWord 0b00010000001111110000001011001010#32 = .ok (.efsnmadd 1 31 0) := by decide
-- 000100 11111 11111 11111 01011001011
theorem test_decode_efsnmsub : decodeWord 0b00010011111111111111101011001011#32 = .ok (.efsnmsub 31 31 31) := by decide

theorem test_decode_refuses_figure_value : decodeWord 0x10642A80#32 = .error (.notInThisSpec 0x10642A80#32) := by decide
theorem test_decode_refuses_opcode_5 : decodeWord 0x14642A82#32 = .error (.notInThisSpec 0x14642A82#32) := by decide
theorem test_decode_short_bytes : decode .bigEndian [0x10, 0x64, 0x2A] = .error .tooFewBytes := by decide
theorem test_decode_bytes :
    decode .bigEndian [0x10, 0x64, 0x2A, 0x82, 0xFF] = .ok (.evfsmadd 3 4 5, [0xFF]) := by decide
theorem test_encode_r82 : encode (.evfsmadd 3 4 5) = 0x10642A82#32 ∧ encode (.efsnmsub 31 31 31) = 0x13FFFACB#32 := by decide
theorem test_table_word : decodeTableWord 32 0x10642AC3 = some (.efsmsub 3 4 5) := by decide

/-! ## Each instruction: one result and one flag or interrupt case (95_test_vectors.md sections 2.3, 2.4) -/

-- V1
theorem test_evfsmadd_ordinary :
    after (.evfsmadd 3 4 5) (operands 0 0x4000000040400000 0x40800000C0A00000 0x3F8000003F000000) =
      some (0x41100000C1680000, 0x1004, 0) := by decide +kernel
-- V5 with FOVFE = 1: rD not updated, data interrupt (entry: rule R210's default)
theorem test_evfsmadd_overflow_interrupt :
    after (.evfsmadd 3 4 5) (operands (scrOf 0 [.fovfe]) 0x7F00000040400000 0x4000000040800000 0x0000000040A00000) =
      some (0x0000000040A00000, 0x40010210, 0x1000) := by decide +kernel
-- V1
theorem test_evfsmsub_ordinary :
    after (.evfsmsub 3 4 5) (operands 0 0x4000000040400000 0x40800000C0A00000 0x3F8000003F000000) =
      some (0x40E00000C1780000, 0x1004, 0) := by decide +kernel
-- V6 with FUNFE = 1: FUNF, FG and FX cleared, FGH and FXH drawn
theorem test_evfsmsub_underflow_flags :
    (let e := vecEffect Config.default .msub (scrOf 0 [.funfe]) ones 0x4040000000800000 0x408000003F000000 0x40A0000000000000
     (e.dest, flags e.spefscr, e.raises)) =
      (none, [false, false, false, false, false, true, false, true, true, false, false],
        some (.efpData .overflowOrUnderflow)) := by decide +kernel
-- V2: a NaN multiplicand is not negated by nmadd
theorem test_evfsnmadd_nan :
    after (.evfsnmadd 3 4 5) (operands 0 0x7FC000003F800000 0x400000003F800000 0x3F80000033C00000) =
      some (0x7F7FFFFFBF800001, 0x1004, 0) := by decide +kernel
-- V5, both elements overflow: the saturated values are negated
theorem test_evfsnmadd_overflow :
    after (.evfsnmadd 3 4 5) (operands 0 0x7F000000FF000000 0x4000000040000000 0) =
      some (0xFF7FFFFF7F7FFFFF, 0x1004, 0) := by decide +kernel
-- V6, low underflow
theorem test_evfsnmsub_underflow :
    after (.evfsnmsub 3 4 5) (operands 0 0x4040000000800000 0x408000003F000000 0x40A0000000000000) =
      some (0xC0E0000080000000, 0x1004, 0) := by decide +kernel
-- V4, flags: both rD elements invalid in a vector form
theorem test_evfsnmsub_invalid_flags :
    (let e := vecEffect Config.default .nmsub 0 ones 0x4000000040400000 0x4040000040800000 0xFF80000000000001
     (e.dest, flags e.spefscr, e.raises)) =
      (some 0xFF7FFFFFC1400000, [true, true, false, false, false, false, false, false, false, false, false], none) := by
  decide +kernel
-- S30: the high element of rD is kept
theorem test_efsmadd_keeps_high :
    after (.efsmadd 3 4 5) (operands 0 0x4110000040400000 0x41100000C0A00000 0xDEADBEEF3F000000) =
      some (0xDEADBEEFC1680000, 0x1004, 0) := by decide +kernel
-- S35 in RP: truncated result, round interrupt, FG = FX = 1, FGH and FXH cleared
theorem test_efsmadd_round_interrupt :
    (let e := scaEffect Config.default .madd
       (scrOf 2 [.finxe, .finvh, .finv, .fovfh, .fovf, .funfh, .funf, .finxs, .fgh, .fxh, .fg, .fx]) ones
       0x3F800000 0x3F800000 0xDEADBEEF33C00000
     (e.dest, flags e.spefscr, e.raises)) =
      (some 0xDEADBEEF3F800000, [true, false, true, false, true, false, true, false, false, true, true], some .efpRound) := by
  decide +kernel
-- S11 in RM: -(pmax + 2^103) rounds away and overflows
theorem test_efsmsub_rounds_to_overflow :
    (let e := scaEffect Config.default .msub 3 ones 0xFF7FFFFF 0x3F800000 0x73000000
     (e.dest, scrGet .fovf e.spefscr, scrGet .finxs e.spefscr)) = (some 0xFF7FFFFF, true, true) := by decide +kernel
-- S15 in RM: exact cancellation gives -0
theorem test_efsmsub_cancels_to_minus_zero :
    after (.efsmsub 3 4 5) (operands 3 0x40000000 0x40400000 0x40C00000) = some (0x80000000, 0x1004, 0) := by decide +kernel
-- S22 in RP: round, then negate
theorem test_efsnmadd_rounds_then_negates :
    after (.efsnmadd 3 4 5) (operands 2 0x3F800000 0x3F800000 0x33000000) = some (0xBF800001, 0x1004, 0) := by decide +kernel
-- P5: the round interrupt in RZ; the handler address and SRR0 are rule R210's default
theorem test_efsnmadd_round_interrupt :
    after (.efsnmadd 3 4 5) (operands (scrOf 1 [.finxe]) 0x3F800000 0x3F800000 0x1234567833C00000) =
      some (0x12345678BF800000, 0x40010220, 0x1004) := by decide +kernel
-- S2: 0 x Inf: the zero wins; FINV set, FOVF and FUNF written 0, FINXS kept
theorem test_efsnmsub_zero_times_infinity :
    (let e := scaEffect Config.default .nmsub (scrOf 0 [.fovf, .funf, .finxs, .fg]) ones 0 0x7F800000 0x3F800000
     (e.dest, (flags e.spefscr).drop 6, scrGet .finv e.spefscr, scrGet .fovf e.spefscr)) =
      (some 0x3F800000, [true, false, false, false, false], true, false) := by decide +kernel
-- R171: aliasing, x*x - x negated, all three operands the old value of r3; here x = 3.0
theorem test_efsnmsub_aliasing :
    after (.efsnmsub 3 3 3) (operands 0 0 0 0x40400000) = some (0xC0C00000, 0x1004, 0) := by decide +kernel

/-! ## Parameters and steps -/

-- rules R31, R11: FRMC = 2 is RP; bits 32:63 are the low element
theorem test_frmc : [0, 1, 2, 3].map roundingMode = [RoundingMode.rn, .rz, .rp, .rm] := by decide
theorem test_elements : (highElement 0x1111111122222222, lowElement 0x1111111122222222) = (0x11111111, 0x22222222) := by decide

/-- `evfsmadd r3,r4,r5` placed at 0x1000. -/
def placed : State := (operands 0 0x4000000040400000 0x40800000C0A00000 0x3F8000003F000000).withFetchWord 32 0x10642A82

-- 95_test_vectors.md section 2.5
theorem test_product_rounding_exact :
    (let r := elem Config.default .madd true .rn 0x3F800001 0x3F800001 0xBF800002 0
     (r.rounded, r.inx)) = (0x28800000, false) := by decide +kernel
theorem test_product_rounding_single :
    (let r := elem { Config.default with productRounding := .single } .madd true .rn 0x3F800001 0x3F800001 0xBF800002 0
     (r.rounded, r.inx)) = (0x00000000, true) := by decide +kernel
-- rule R51
theorem test_reset_step_is_stuck : step State.reset = .fault (.fetchUnmapped 0xFFFFFFFC) := rfl
-- rule R51, R74: register 0 is like any other
theorem test_placed_word_runs :
    (nextOf (step ((stateWith 0 [(0, 0x40000000)]).withFetchWord 32 0x100002C2))).map (fun t => (t.readGpr 0, t.pc)) =
      some (0x40C00000, 0x1004) := by decide +kernel

-- rules R210 (a), R223 (a): the state at the raise of P5, and the end of the run
theorem test_terminal_raise :
    (nextOf (exec (.efsnmadd 3 4 5) { operands (scrOf 1 [.finxe]) 0x3F800000 0x3F800000 0x1234567833C00000 with
        cfg := { Config.default with trapEntry := .terminal } })).map (fun t => (t.readGpr 3, t.pc, t.srr0, t.raised)) =
      some (0x12345678BF800000, 0x1000, 0, some .efpRound) := by decide +kernel
theorem test_ended_run_goes_no_further :
    step { placed with raised := some .efpRound } = .fault (.runEnded .efpRound) := rfl

/-! ## Witnesses -/

theorem witness_EncodeOfDecodeIsTheWord : decodeWord 0x13FFFACB#32 = .ok (.efsnmsub 31 31 31) := by decide
theorem witness_WordValueIsSumOfFields : decodeWord 0x10000282#32 = .ok (.evfsmadd 0 0 0) := by decide
theorem witness_OpcodeTable : 0x13FFFACB#32 &&& 0xFC0007FF#32 = 0x100002CB#32 ∧ ∃ rD rA rB, decodeWord 0x13FFFACB#32 =
    .ok (.efsnmsub rD rA rB) := ⟨by decide, 31, 31, 31, by decide⟩
theorem witness_DecodingFollowsMatchAndFields : 0x103F02CA#32 &&& 0xFC0007FF#32 = matchWord .efsnmadd ∧
    (∀ m ∈ Mnemonic.all, 0x100002CC#32 &&& 0xFC0007FF#32 ≠ matchWord m) ∧
    decode .littleEndian [0xCA, 0x02, 0x3F, 0x10, 0x07] = .ok (.efsnmadd 1 31 0, [0x07]) := by decide
theorem witness_NeighbourOpcodes : (0x280#11).toNat = 0x280 ∧ (0x2CF#11).toNat = 0x2CF ∧ (5#6 : BitVec 6) ≠ 4#6 := by decide
theorem witness_AssemblerOperandOrder : (AsmLine.mk .efsmadd [31, 0, 5]).assemble = some (.efsmadd 31 0 5) := by decide
theorem witness_StepRuns : placed.raised = none ∧ pcAligned placed.pc = true ∧ fetchWord placed = .ok 0x10642A82 ∧
    decodeWord 0x10642A82 = .ok (.evfsmadd 3 4 5) := by decide +kernel
theorem witness_FetchedWordIsBigEndian : placed.cfg.insnByteOrder = .bigEndian ∧ placed.mem.read placed.pc = some 0x10 ∧
    placed.mem.read (placed.pc + 1#32) = some 0x64 ∧ placed.mem.read (placed.pc + 2#32) = some 0x2A ∧
    placed.mem.read (placed.pc + 3#32) = some 0x82 := by decide +kernel
theorem witness_MisalignedPc : placed.raised = none ∧ ∀ k : Fin 3, ({ placed with pc := BitVec.ofNat 32 (0x1001 + k) } : State).pc.toNat % 4 ≠ 0 := by
  decide +kernel
theorem witness_FetchOutsideMemory_first : State.reset.raised = none ∧ State.reset.pc.toNat % 4 = 0 ∧ State.reset.mem.read State.reset.pc = none := by
  decide +kernel
theorem witness_FetchOutsideMemory_last :
    let s := { placed with mem := [(0x1000, 0x10), (0x1001, 0x64), (0x1002, 0x2A)] }
    s.raised = none ∧ s.pc.toNat % 4 = 0 ∧ (∀ j < 3, (s.mem.read (s.pc + BitVec.ofNat 32 j)).isSome = true) ∧
      s.mem.read (s.pc + BitVec.ofNat 32 3) = none := by decide +kernel
theorem witness_UnmatchedWord :
    let s := (stateWith 0 []).withFetchWord 32 0x10642A80
    s.raised = none ∧ pcAligned s.pc = true ∧ fetchWord s = .ok 0x10642A80 ∧
      ∀ m ∈ Mnemonic.all, (0x10642A80#32 &&& 0xFC0007FF#32) ≠ matchWord m := by decide +kernel
theorem witness_UnmatchedWord_all (m : Mnemonic) : m ∈ Mnemonic.all := by cases m <;> decide
theorem witness_PlacedInstruction : pcAligned State.reset.pc = true ∧ pcAligned placed.pc = true := by decide +kernel
theorem witness_NormalEnd : (∃ t, runUntil 0x1000 0 placed = .normalEnd t) ∧ ∃ t, runUntil 0x1004 1 placed = .normalEnd t := by
  obtain ⟨t, ht⟩ := exists_next (step placed) (by decide +kernel)
  have hpc : (nextOf (step placed)).map (fun t => (t.pc, t.raised)) = some (0x1004, none) := by decide +kernel
  refine ⟨⟨placed, rfl⟩, t, ?_⟩
  rw [ht] at hpc
  obtain ⟨hpc', hr⟩ := Prod.mk.inj (Option.some.inj hpc)
  simp [runUntil, ht, hpc', hr, show placed.raised = none from rfl, show placed.pc = 0x1000 from rfl]
/-- Also the hypothesis of `NoStepChangesMemoryEnablesOrMode`. -/
theorem witness_EveryStepKeepsTheInvariant : placed.inv ∧ ∃ t, step placed = .next t :=
  ⟨⟨by decide +kernel, by decide +kernel, fun _ h => nomatch (show TrapEntryChoice.embedded = .custom _ from h)⟩,
    exists_next _ (by decide +kernel)⟩
theorem witness_FinxsIsNeverCleared :
    let s := { placed with spefscr := scrOf 0 [.finxs] }
    s.scr .finxs = true ∧ ∃ t, step s = .next t := ⟨by decide +kernel, exists_next _ (by decide +kernel)⟩
theorem witness_Available_lacks : ({ placed with cfg := { Config.default with device := .mpc5554 } } : State).cfg.device = .mpc5554 :=
  rfl
theorem witness_Available_closed :
    let s := { placed with cfg := { Config.default with speEnableVector := true } }
    ¬ (s.cfg.device = .mpc5554 ∨ s.cfg.device = .mpc5553) ∧ s.cfg.speEnableVector = true ∧ msrGet .spe s.msr = false := by
  decide +kernel
/-- Neither clause: the enable is required and set. -/
theorem witness_Available_open :
    let s := { placed with cfg := { Config.default with speEnableScalar := true }, msr := 0x02000000 }
    ¬ (s.cfg.device = .mpc5554 ∨ s.cfg.device = .mpc5553) ∧ s.cfg.speEnableScalar = true ∧ msrGet .spe s.msr = true := by
  decide +kernel

/-- Every enable is 1 and nothing is signalled; one witness for all four vector and all four scalar instructions. -/
theorem witness_CompletesWithEnables :
    let s := operands (scrOf 0 [.finve, .fovfe, .funfe, .finxe]) 0x4000000040400000 0x40800000C0A00000 0x3F8000003F000000
    (∀ m ∈ Mnemonic.all, s.executable (m.instr 3 4 5).isVector) ∧ ∀ m ∈ Mnemonic.all, s.noInterrupt (m.instr 3 4 5) := by
  decide +kernel
/-- Destination r0, and both an invalid and an inexact element with the enables 0. -/
theorem witness_CompletesInvalid :
    let s := stateWith 0 [(0, 0x3F80000033C00000), (4, 0x7FC000003F800000), (5, 0x400000003F800000)]
    s.executable true ∧ s.noInterrupt (.evfsnmadd 0 4 5) ∧ (s.highResult (.evfsnmadd 0 4 5)).inv = true ∧
      s.inexactEvent (.evfsnmadd 0 4 5) := by decide +kernel
theorem witness_InvalidInterrupt :
    let s := operands (scrOf 0 [.finve]) 0x7FC000007FC00000 0x4000000040000000 0x3F80000033C00000
    s.executable true ∧ s.invalidHit (.evfsmadd 3 4 5) ∧ s.executable false ∧ s.invalidHit (.efsmadd 3 4 5) := by
  decide +kernel
theorem witness_RangeInterrupt_overflow :
    let s := operands (scrOf 0 [.fovfe]) 0x7F0000007F000000 0x4000000040000000 0
    ¬ s.invalidHit (.evfsmsub 3 4 5) ∧ s.rangeHit (.evfsmsub 3 4 5) ∧ ¬ s.invalidHit (.efsmsub 3 4 5) ∧
      s.rangeHit (.efsmsub 3 4 5) ∧ s.executable true ∧ s.executable false := by decide +kernel
theorem witness_RangeInterrupt_underflow :
    let s := operands (scrOf 0 [.funfe]) 0x4040000000800000 0x408000003F000000 0x40A0000000000000
    ¬ s.invalidHit (.evfsmsub 3 4 5) ∧ s.rangeHit (.evfsmsub 3 4 5) ∧ ¬ s.invalidHit (.efsmsub 3 4 5) ∧
      s.rangeHit (.efsmsub 3 4 5) := by decide +kernel
theorem witness_RoundInterrupt :
    let s := operands (scrOf 0 [.finxe]) 0x7F0000003F800000 0x400000003F800000 0x0000000033000000
    ¬ s.invalidHit (.evfsnmsub 3 4 5) ∧ ¬ s.rangeHit (.evfsnmsub 3 4 5) ∧ s.roundHit (.evfsnmsub 3 4 5) ∧
      ¬ s.invalidHit (.efsnmsub 3 4 5) ∧ ¬ s.rangeHit (.efsnmsub 3 4 5) ∧ s.roundHit (.efsnmsub 3 4 5) ∧
      s.executable true ∧ s.executable false := by decide +kernel
theorem witness_InterruptEntry :
    let s := operands (scrOf 0 [.finve]) 0x7FC00000 0x40000000 0
    s.cfg.trapEntry = .embedded ∧ s.executable false ∧ ¬ s.noInterrupt (.efsmadd 3 4 5) := by decide +kernel
/-- One raise of each kind. -/
theorem witness_TerminalRaiseEndsTheRun :
    let cfg := { Config.default with trapEntry := .terminal }
    let s1 := { operands (scrOf 0 [.finve]) 0x7FC00000 0x40000000 0 with cfg := cfg }
    let s2 := { operands (scrOf 0 [.fovfe]) 0x7F000000 0x40000000 0 with cfg := cfg }
    let s3 := { operands (scrOf 0 [.finxe]) 0x3F800000 0x3F800000 0x33000000 with cfg := cfg }
    cfg.trapEntry = .terminal ∧ s1.executable false ∧ ¬ s1.noInterrupt (.efsmadd 3 4 5) ∧
      ¬ s2.noInterrupt (.efsmadd 3 4 5) ∧ ¬ s3.noInterrupt (.efsmadd 3 4 5) := by decide +kernel
/-- An entry with distinct vectors, and a configuration that names a custom one. -/
theorem witness_TrapEntryIsAParameter :
    ({ Config.default with trapEntry := .custom 7 } : Config).trapEntry = .custom 7 ∧
      vectorsDistinct (fun _ kind => { (default : EntryRegs) with pc := if kind = .data then 0x100 else 0x200 }) :=
  ⟨rfl, fun _ => (by decide : (0x200 : Word) ≠ 0x100)⟩
/-- A form that raises under the default entry; the other conditions of the frame hold without an interrupt. -/
theorem witness_Frame_interrupt :
    let s := operands (scrOf 0 [.finve]) 0x7FC00000 0x40000000 0
    (nextOf (exec (.efsmadd 3 4 5) s)).isSome = true ∧ s.cfg.trapEntry.isCustom = false ∧ s.cfg.trapEntry ≠ .terminal := by
  decide +kernel
theorem witness_IgnoreMemory_refused :
    ({ placed with cfg := { Config.default with device := .mpc5553 } } : State).cfg.device.hasAdditionalSpe = false := rfl
theorem witness_ReturnUndoesEntry : (operands 0 0 0 0).cfg.trapEntry = .embedded ∧ pcAligned (operands 0 0 0 0).pc = true := by
  decide
theorem witness_ScalarIgnoresHighElements :
    let s := operands 0 0x40400000 0xC0A00000 0x3F000000
    let s' := operands 0 0x7FC0000040400000 0x7F800000C0A00000 0x000000013F000000
    s' = { s with gpr := s'.gpr } ∧ (∀ r : Fin 32, lowElement (s'.readGpr r.val) = lowElement (s.readGpr r.val)) ∧
      (nextOf (exec (.efsmadd 3 4 5) s)).isSome = true ∧ (nextOf (exec (.efsmadd 3 4 5) s')).isSome = true := by
  decide +kernel
theorem witness_HighLaneIgnoresLowLane :
    let s := operands 0 0x4040000000000000 0xC0A0000000000000 0x3F00000000000000
    let s' := operands 0 0x404000007F800000 0xC0A0000000000001 0x3F00000033800000
    s' = { s with gpr := s'.gpr } ∧ (∀ b ∈ [ScrBit.finve, .fovfe, .funfe, .finxe], s.scr b = false) ∧
      (∀ r : Fin 32, highElement (s'.readGpr r.val) = highElement (s.readGpr r.val)) ∧
      (nextOf (exec (.evfsmadd 3 4 5) s)).isSome = true ∧ (nextOf (exec (.evfsmadd 3 4 5) s')).isSome = true := by
  decide +kernel
theorem witness_LowLaneIgnoresHighLane :
    let s := operands 0 0x0000000040400000 0x00000000C0A00000 0x000000003F000000
    let s' := operands 0 0x7F80000040400000 0x00000001C0A00000 0x338000003F000000
    s' = { s with gpr := s'.gpr } ∧ (∀ b ∈ [ScrBit.finve, .fovfe, .funfe, .finxe], s.scr b = false) ∧
      (∀ r : Fin 32, lowElement (s'.readGpr r.val) = lowElement (s.readGpr r.val)) ∧
      (nextOf (exec (.evfsmadd 3 4 5) s)).isSome = true ∧ (nextOf (exec (.evfsmadd 3 4 5) s')).isSome = true := by
  decide +kernel
theorem witness_InstructionsIgnoreTheMode :
    msrGet .spe 0x00004000 = msrGet .spe placed.msr ∧ ∃ t, exec (.efsmadd 3 4 5) placed = .next t :=
  ⟨by decide +kernel, exists_next _ (by decide +kernel)⟩

theorem witness_SpecialMultiplicand : expOf 0x00800000 ≠ 0 ∧ expOf 0xFFC00000 ≠ 0 ∧ expOf 0xFFC00000 = 255 := by decide +kernel
/-- Clause 1 (a zero meets an infinity) and clause 3 (both normalized, at the ends of the exponent range). -/
theorem witness_SpecialAddend : expOf 0x807FFFFF = 0 ∧ expOf 0x7F800000 = 255 ∧ expOf 0x00800000 = 1 ∧ expOf 0x7F7FFFFF = 254 := by
  decide +kernel
/-- The ends of the range of d. -/
theorem witness_ZeroProduct : expOf 0x00000001 = 0 ∧ 1 ≤ expOf 0x80800000 ∧ expOf 0x7F7FFFFF ≤ 254 := by decide +kernel
/-- The intermediate product of `PRODUCT_ROUNDING = exact`, the hypothesis of the statements about sums. -/
theorem witness_isProduct_exact : isProduct Config.default .rn 0x40000000 0x40400000 (elemVal 0x40000000 * elemVal 0x40400000) :=
  rfl
/-- 95_test_vectors.md section 2.5: under `single`, (1 + 2^-23)^2 is 1 + 2^-22 in RN. -/
theorem witness_isProduct_single :
    isProduct { Config.default with productRounding := .single } .rn 0x3F800001 0x3F800001 (1 + 1 / 2 ^ 22) := by
  have h : elemVal 0x3F800001 = 1 + 1 / 2 ^ 23 := by
    unfold elemVal
    rw [show expOf 0x3F800001 = 127 by decide, show fracOf 0x3F800001 = 1 by decide, show signOf 0x3F800001 = false by decide]
    norm_num
  simp only [isProduct, h]
  rw [if_neg (by norm_num)]
  refine ⟨0, 2 ^ 23 + 2, ?_, ?_, ?_, ?_, ?_⟩ <;> norm_num
/-- 2 * 3 - 6. -/
theorem witness_ExactZeroSum : expOf 0x40000000 ≠ 255 ∧ expOf 0x40400000 ≠ 255 ∧ expOf 0x40C00000 ≠ 255 ∧
    sumWith .msub (elemVal 0x40000000 * elemVal 0x40400000) 0x40C00000 = 0 := by
  refine ⟨by decide +kernel, by decide +kernel, by decide +kernel, ?_⟩
  have h : (product Config.default .rn 0x40000000 0x40400000).value + addend .msub 0x40C00000 = 0 := by decide +kernel
  rw [sumWith_eq _ _ _ _ (product_value_exact Config.default .rn _ _ rfl), h]
  simp
/-- 2^-126 * 2^-1 underflows, 2^127 * 2 overflows. -/
theorem witness_UnderflowAndOverflow :
    (elem Config.default .madd false .rn 0x00800000 0x3F000000 0 0).unf = true ∧
      (elem Config.default .nmadd true .rz 0xFF000000 0x40000000 0 0).ovf = true ∧
      Config.default.underflowDetect = .beforeRounding ∧ Config.default.overflowDetect = .afterRounding := by decide +kernel
/-- The other detection points at their boundaries: 2^-126 - 2^-152 is underflow before rounding only, and pmax + 2^103 is
overflow after rounding only. -/
theorem witness_OtherDetectionPoints :
    let late := { Config.default with underflowDetect := .afterRounding }
    let early := { Config.default with overflowDetect := .beforeRounding }
    (elem late .madd true .rn 0x99000000 0x1A000000 0x00800000 0).unf = false ∧
      (elem Config.default .madd true .rn 0x99000000 0x1A000000 0x00800000 0).unf = true ∧
      (elem early .madd true .rn 0x64000000 0x4E800000 0x7F7FFFFF 0).ovf = false ∧
      (elem Config.default .madd true .rn 0x64000000 0x4E800000 0x7F7FFFFF 0).ovf = true := by decide +kernel
/-- In every mode: a tie 1 * 1 + 2^-24, and its lower neighbour, the exact sum 1 * 1 + 0. -/
theorem witness_FiniteResult : ∀ mode ∈ [RoundingMode.rn, .rz, .rp, .rm],
    (let r := elem Config.default .nmadd true mode 0x3F800000 0x3F800000 0x33800000 0
     r.ovf = false ∧ r.unf = false ∧ r.inx = true) ∧
    (let r := elem Config.default .madd true mode 0x3F800000 0x3F800000 0 0
     r.ovf = false ∧ r.unf = false ∧ r.inx = false ∧ r.truncated = 0x3F800000 ∧ r.rounded = 0x3F800000) := by
  decide +kernel
theorem witness_FiniteResult_sum : sumWith .nmadd (elemVal 0x3F800000 * elemVal 0x3F800000) 0x33800000 ≠ 0 ∧
    sumWith .madd (elemVal 0x3F800000 * elemVal 0x3F800000) 0 ≠ 0 := by
  have h : (product Config.default .rn 0x3F800000 0x3F800000).value + addend .nmadd 0x33800000 ≠ 0 ∧
      (product Config.default .rn 0x3F800000 0x3F800000).value + addend .madd 0 ≠ 0 := by decide +kernel
  have e := product_value_exact Config.default .rn 0x3F800000 0x3F800000 rfl
  rw [sumWith_eq _ _ _ _ e, sumWith_eq _ _ _ _ e]
  exact ⟨div_ne_zero (Int.cast_ne_zero.2 h.1) (pow_ne_zero _ two_ne_zero),
    div_ne_zero (Int.cast_ne_zero.2 h.2) (pow_ne_zero _ two_ne_zero)⟩
/-- Guard and sticky tell a tie, less and more than half a unit apart (rule R117). -/
theorem witness_GuardSticky :
    (let r := elem Config.default .madd true .rz 0x3F800000 0x3F800000 0x33800000 0
     (r.g, r.x)) = (true, false) ∧
    (let r := elem Config.default .madd true .rz 0x3F800000 0x3F800000 0x33000000 0
     (r.g, r.x)) = (false, true) ∧
    (let r := elem Config.default .madd true .rz 0x3F800000 0x3F800000 0x33C00000 0
     (r.g, r.x)) = (true, true) := by decide +kernel
theorem witness_NegatedOperation : ¬ (expOf 0 ≠ 0 ∧ expOf 0x7F800000 ≠ 0 ∧ (expOf 0 = 255 ∨ expOf 0x7F800000 = 255)) ∧
    (expOf 0x3F800000 ≠ 0 ∧ expOf 0x7F800000 ≠ 0 ∧ (expOf 0x3F800000 = 255 ∨ expOf 0x7F800000 = 255)) ∧
    Config.default.nmaddSpecialNegated = false ∧
    ({ Config.default with nmaddSpecialNegated := true } : Config).nmaddSpecialNegated = true := by decide +kernel
theorem witness_ScalarInvalidElement : Config.default.scalarFinvIncludesRd = false ∧
    (elem Config.default .madd false .rn 0x00000001 0x40000000 0x40400000 0).inv = true := by decide +kernel
theorem witness_GuardAndSticky : (roundParts .rn 1).remainder = 0 ∧ (roundParts .rn (2 ^ 24 + 1)).guard = true := by decide +kernel
theorem witness_ProductRounding : (roundParts .rn (fixedProduct 0x40000000 0x40400000)).inexact = false := by decide +kernel

end Sys2Proof.Tests
end

/-! Spec 00_scope.md rule R2: the columns of Table 1, each read off by the row of the device. -/

namespace Sys2Proof

/-- Column "Additional SPE instructions" of Table 1: the rows that say "Yes". -/
theorem Device.hasAdditionalSpe_iff_mem (d : Device) :
    d.hasAdditionalSpe = true ↔ d ∈ [.mpc5533, .mpc5534, .mpc5565, .mpc5566, .mpc5567] := by
  cases d <;> simp [Device.hasAdditionalSpe]

/-- Rule R2, after the table: the last two columns are equal in every row. -/
theorem Device.vleSupport_eq_hasAdditionalSpe (d : Device) : d.vleSupport = d.hasAdditionalSpe := by
  cases d <;> rfl

/-- Column "Core" of Table 1; the rows that do not say e200z3 say e200z6. -/
theorem Device.core_eq_e200z3_iff (d : Device) : d.core = .e200z3 ↔ d = .mpc5533 ∨ d = .mpc5534 := by
  cases d <;> simp [Device.core]

/-- Settles O23, one column of Table 1 for each conjunct. -/
theorem deviceTable : Obligations.DeviceTable :=
  ⟨Device.hasAdditionalSpe_iff_mem, Device.vleSupport_eq_hasAdditionalSpe, Device.core_eq_e200z3_iff⟩

end Sys2Proof

/-! Spec 30_encoding.md rules R71 to R74: the decoder as a condition on the word's value, field by field. -/

namespace Sys2Proof

/-- The match of a row is its OPCD and XO with the register fields 0 (rule R72). -/
theorem toNat_matchWord (m : Mnemonic) : (matchWord m).toNat = 4 * 2 ^ 26 + (extendedOpcode m).toNat := by
  cases m <;> rfl

/-- Selection by match and mask is selection by OPCD and XO (rule R72). -/
theorem and_decodeMask_eq_matchWord_iff (w : Word) (m : Mnemonic) :
    w &&& decodeMask = matchWord m ↔ w.toNat / 2 ^ 26 = 4 ∧ w.toNat % 2 ^ 11 = (extendedOpcode m).toNat := by
  have hxo := (extendedOpcode m).isLt
  rw [← BitVec.toNat_inj, toNat_and_decodeMask, toNat_matchWord]
  omega

theorem and_decodeMask_encode (i : Instr) : encode i &&& decodeMask = matchWord i.mnemonic := by
  have hd := i.rD.isLt
  have ha := i.rA.isLt
  have hb := i.rB.isLt
  have hxo := (extendedOpcode i.mnemonic).isLt
  rw [and_decodeMask_eq_matchWord_iff, toNat_encode]
  omega

/-- A word whose masked value is a row's match decodes to that row with the word's register fields (rule R74). -/
theorem decodeWord_of_and_decodeMask {w : Word} {m : Mnemonic} (h : w &&& decodeMask = matchWord m) :
    decodeWord w = .ok (m.instr (fieldRD w) (fieldRA w) (fieldRB w)) := by
  simp only [decodeWord, (selectRow_eq_some w m).2 h]

/-- What a word that decodes is: its row's match under the mask, with the register fields of the instruction (rule R74). -/
theorem decodeWord_eq_ok_iff (w : Word) (i : Instr) :
    decodeWord w = .ok i ↔
      w &&& decodeMask = matchWord i.mnemonic ∧ fieldRD w = i.rD ∧ fieldRA w = i.rA ∧ fieldRB w = i.rB := by
  constructor
  · intro h
    unfold decodeWord at h
    split at h
    next m hm =>
      cases h
      obtain ⟨hmnem, hd, ha, hb⟩ := mnemonic_instr m (fieldRD w) (fieldRA w) (fieldRB w)
      exact ⟨hmnem.symm ▸ (selectRow_eq_some w m).1 hm, hd.symm, ha.symm, hb.symm⟩
    next => cases h
  · rintro ⟨hm, hd, ha, hb⟩
    rw [decodeWord_of_and_decodeMask hm, hd, ha, hb, instr_of_mnemonic]

/-- A word that matches no row is rejected by name (rules R74, R77). -/
theorem decodeWord_of_no_row {w : Word} (h : ∀ m, w &&& decodeMask ≠ matchWord m) :
    decodeWord w = .error (.notInThisSpec w) := by
  simp only [decodeWord, (selectRow_eq_none w).2 h]

@[simp] theorem decodeWord_encode (i : Instr) : decodeWord (encode i) = .ok i :=
  (decodeWord_eq_ok_iff _ i).2 ⟨and_decodeMask_encode i, fieldRD_encode i, fieldRA_encode i, fieldRB_encode i⟩

/-- Decoding of bytes takes four of them, and the word they hold decodes (rules R52, R70). -/
theorem decode_eq_ok {order : ByteOrder} {bytes rest : List Byte} {i : Instr} (h : decode order bytes = .ok (i, rest)) :
    ∃ b0 b1 b2 b3, bytes = b0 :: b1 :: b2 :: b3 :: rest ∧ decodeWord (wordOfBytes order b0 b1 b2 b3) = .ok i := by
  unfold decode at h
  split at h
  next b0 b1 b2 b3 rest' =>
    split at h
    next j hj =>
      cases h
      exact ⟨b0, b1, b2, b3, rfl, hj⟩
    next => cases h
  next => cases h

/-- Settles O3: the mask condition gives OPCD and XO, the decoded register numbers are the word's fields, and the sum is
the word taken apart at the field boundaries. -/
theorem wordValueIsSumOfFields : Obligations.WordValueIsSumOfFields := by
  intro w i h
  obtain ⟨hmask, hd, ha, hb⟩ := (decodeWord_eq_ok_iff w i).1 h
  obtain ⟨hopcd, hxo⟩ := (and_decodeMask_eq_matchWord_iff w i.mnemonic).1 hmask
  rw [← hd, ← ha, ← hb, toNat_fieldRD, toNat_fieldRA, toNat_fieldRB]
  refine ⟨?_, hopcd, rfl, rfl, rfl, hxo⟩
  omega

/-- Settles O4: each literal row of the table is the model's row, and a row is selected exactly by its match. -/
theorem opcodeTableSelectsByMatchAndMask : Obligations.OpcodeTableSelectsByMatchAndMask := by
  intro p hp
  have hrow : (extendedOpcode p.1).toNat = p.2.1 ∧ matchWord p.1 = p.2.2 := by
    revert p
    decide
  obtain ⟨hxo, hmatch⟩ := hrow
  rw [← hxo, ← hmatch]
  constructor
  · intro rD rA rB
    have hmask := and_decodeMask_encode (p.1.instr rD rA rB)
    rw [(mnemonic_instr p.1 rD rA rB).1, and_decodeMask_eq_matchWord_iff] at hmask
    exact hmask.symm
  · intro w
    constructor
    · intro hmask
      exact ⟨_, _, _, decodeWord_of_and_decodeMask hmask⟩
    · rintro ⟨rD, rA, rB, h⟩
      obtain ⟨hmask, -⟩ := (decodeWord_eq_ok_iff w _).1 h
      rwa [(mnemonic_instr p.1 rD rA rB).1] at hmask

/-- Settles O5, one clause of rule R74 for each conjunct; the word of the third is the instruction's encoding. -/
theorem decodingFollowsMatchAndFields : Obligations.DecodingFollowsMatchAndFields := by
  refine ⟨fun w m hmask => ?_, fun w h => decodeWord_of_no_row h,
    fun m rD rA rB => ⟨_, decodeWord_encode (m.instr rD rA rB)⟩, fun order bytes rest i h => decode_eq_ok h⟩
  obtain ⟨hmnem, hd, ha, hb⟩ := mnemonic_instr m (fieldRD w) (fieldRA w) (fieldRB w)
  refine ⟨_, decodeWord_of_and_decodeMask hmask, hmnem, ?_, ?_, ?_⟩
  · rw [hd, toNat_fieldRD]
  · rw [ha, toNat_fieldRA]
  · rw [hb, toNat_fieldRB]

end Sys2Proof

/-! Spec 30_encoding.md rules R52, R71 to R77, R80, R82: the round trip of the encoding, the words outside the table, and
assembler lines. -/

namespace Sys2Proof

/-- The four bytes of a word that decodes are decoded to the same instruction, and what follows them is left (rule R52). -/
theorem decode_bytesOfWord_append (order : ByteOrder) {w : Word} {i : Instr} (rest : List Byte) (h : decodeWord w = .ok i) :
    decode order (bytesOfWord order w ++ rest) = .ok (i, rest) := by
  obtain ⟨b0, b1, b2, b3, hbytes, hword⟩ := wordOfBytes_bytesOfWord order w
  simp [decode, hbytes, hword, h]

/-- Settles O1: the word by the decoder's condition on OPCD, XO and the fields, the bytes by joining them again. -/
theorem decodeOfEncodeIsIdentity : Obligations.DecodeOfEncodeIsIdentity := fun i order rest =>
  ⟨decodeWord_encode i, decode_bytesOfWord_append order rest (decodeWord_encode i)⟩

/-- Settles O2: a word that decodes is the sum of its fields, and so is the encoding. -/
theorem encodeOfDecodeIsTheWord : Obligations.EncodeOfDecodeIsTheWord := by
  intro w i h
  obtain ⟨hsum, -⟩ := wordValueIsSumOfFields w i h
  exact BitVec.eq_of_toNat_eq ((toNat_encode i).trans hsum.symm)

theorem toNat_append_fields (opcode : BitVec 6) (fields : BitVec 15) (xo : BitVec 11) :
    (opcode ++ fields ++ xo).toNat = opcode.toNat * 2 ^ 26 + fields.toNat * 2 ^ 11 + xo.toNat := by
  have hfields := fields.isLt
  have hxo := xo.isLt
  rw [BitVec.toNat_append, BitVec.toNat_append, ← Nat.shiftLeft_add_eq_or_of_lt hfields,
    ← Nat.shiftLeft_add_eq_or_of_lt hxo]
  simp only [Nat.shiftLeft_eq]
  omega

/-- A primary opcode other than 4 is in no row (rules R71, R77). -/
theorem decodeWord_of_opcode_ne {w : Word} (h : w.toNat / 2 ^ 26 ≠ 4) : decodeWord w = .error (.notInThisSpec w) :=
  decodeWord_of_no_row fun m hm => h ((and_decodeMask_eq_matchWord_iff w m).1 hm).1

/-- An extended opcode that Table 2 does not print is in no row (rules R72, R77). -/
theorem decodeWord_of_extendedOpcode_ne {w : Word} (h : ∀ m, w.toNat % 2 ^ 11 ≠ (extendedOpcode m).toNat) :
    decodeWord w = .error (.notInThisSpec w) :=
  decodeWord_of_no_row fun m hm => h m ((and_decodeMask_eq_matchWord_iff w m).1 hm).2

/-- Settles O6: no listed value is a printed extended opcode, and no other primary opcode is 4. -/
theorem neighbourOpcodesAreNotInThisSpec : Obligations.NeighbourOpcodesAreNotInThisSpec := by
  constructor
  · intro fields xo hxo
    refine decodeWord_of_extendedOpcode_ne fun m hm => ?_
    have hlow : (4#6 ++ fields ++ xo).toNat % 2 ^ 11 = xo.toNat := by
      have := xo.isLt
      rw [toNat_append_fields]
      omega
    rw [← hlow, hm] at hxo
    revert hxo
    cases m <;> decide
  · intro opcode low hopcode
    refine decodeWord_of_opcode_ne fun h => hopcode (BitVec.eq_of_toNat_eq ?_)
    have hlow := low.isLt
    rw [BitVec.toNat_append, ← Nat.shiftLeft_add_eq_or_of_lt hlow, Nat.shiftLeft_eq] at h
    show opcode.toNat = 4
    omega

/-- The structure of the extended opcode (rule R73). -/
theorem toNat_extendedOpcode (i : Instr) : (extendedOpcode i.mnemonic).toNat =
    0x282 + 0x40 * (if i.isVector then 0 else 1) + 0x08 * (if Machine.negates i.op then 1 else 0)
      + 0x01 * (if Machine.subtracts i.op then 1 else 0) := by
  cases i <;> rfl

/-- Settles O7: the low 11 bits of an encoding are the extended opcode. -/
theorem extendedOpcodeStructure : Obligations.ExtendedOpcodeStructure := by
  intro i
  have hxo := (extendedOpcode i.mnemonic).isLt
  rw [← toNat_extendedOpcode, toNat_encode]
  omega

/-- Settles O8: the decoder evaluated on each word. -/
theorem wordsOfTheSpecDecodeAsListed : Obligations.WordsOfTheSpecDecodeAsListed := by
  unfold Obligations.WordsOfTheSpecDecodeAsListed
  decide

/-- A line stands for the instruction of its mnemonic whose register numbers are its operands (rule R80). -/
theorem AsmLine.assemble_eq_some_iff (l : AsmLine) (i : Instr) :
    l.assemble = some i ↔ i.mnemonic = l.mnemonic ∧ l.operands = [i.rD.toNat, i.rA.toNat, i.rB.toNat] := by
  obtain ⟨m, operands⟩ := l
  constructor
  · intro h
    simp only [AsmLine.assemble] at h
    split at h
    next d a b =>
      split at h
      next hreg =>
        obtain ⟨hm, hd, ha, hb⟩ := mnemonic_instr m (BitVec.ofNat 5 d) (BitVec.ofNat 5 a) (BitVec.ofNat 5 b)
        simp only [AsmLine.registersOk, List.all_cons, List.all_nil, Bool.and_true, Bool.and_eq_true,
          decide_eq_true_eq] at hreg
        cases h
        rw [hm, hd, ha, hb]
        simpa using ⟨Eq.symm (Nat.mod_eq_of_lt hreg.1), Eq.symm (Nat.mod_eq_of_lt hreg.2.1),
          Eq.symm (Nat.mod_eq_of_lt hreg.2.2)⟩
      next => cases h
    next => cases h
  · rintro ⟨hm, hops⟩
    have hd := i.rD.isLt
    have ha := i.rA.isLt
    have hb := i.rB.isLt
    obtain rfl : i.mnemonic = m := hm
    obtain rfl : operands = [i.rD.toNat, i.rA.toNat, i.rB.toNat] := hops
    simp [AsmLine.assemble, AsmLine.registersOk, hd, ha, hb, instr_of_mnemonic]

/-- A line stands for an instruction exactly if it has three operands that are register numbers (rule R80). -/
theorem AsmLine.wellFormed_iff_exists_assemble (l : AsmLine) : l.wellFormed = true ↔ ∃ i, l.assemble = some i := by
  constructor
  · intro h
    simp only [AsmLine.wellFormed, AsmLine.operandCountOk, Bool.and_eq_true, beq_iff_eq] at h
    obtain ⟨hcount, hreg⟩ := h
    obtain ⟨d, a, b, hops⟩ := List.length_eq_three.1 hcount
    exact ⟨l.mnemonic.instr (BitVec.ofNat 5 d) (BitVec.ofNat 5 a) (BitVec.ofNat 5 b), by simp [AsmLine.assemble, hops, hreg]⟩
  · rintro ⟨i, h⟩
    obtain ⟨-, hops⟩ := (l.assemble_eq_some_iff i).1 h
    have hd := i.rD.isLt
    have ha := i.rA.isLt
    have hb := i.rB.isLt
    simp [AsmLine.wellFormed, AsmLine.operandCountOk, AsmLine.registersOk, hops, hd, ha, hb]

/-- Settles O9: assembling reads the operands off in the order rD, rA, rB. -/
theorem assemblerOperandOrder : Obligations.AssemblerOperandOrder := fun l =>
  ⟨l.wellFormed_iff_exists_assemble, fun i => (l.assemble_eq_some_iff i).1⟩

end Sys2Proof

/-! Spec 20_memory.md rules R51 to R54, R59 and 10_state.md rules R29, R31: the cases of a step, and what every step keeps. -/

namespace Sys2Proof.Machine

theorem step_of_misaligned {s : State} (hraised : s.raised = none) (h : pcAligned s.pc = false) :
    step s = .refused (.misalignedPc s.pc) := by
  simp [step, hraised, h]

theorem step_of_fetch_error {s : State} {a : Word} (hraised : s.raised = none) (halign : pcAligned s.pc = true)
    (h : fetchWord s = .error a) : step s = .fault (.fetchUnmapped a) := by
  simp [step, hraised, halign, h]

theorem step_of_decode_error {s : State} {w : Word} {e : DecodeError} (hraised : s.raised = none)
    (halign : pcAligned s.pc = true) (hfetch : fetchWord s = .ok w) (h : decodeWord w = .error e) :
    step s = .refused (.notInThisSpec w) := by
  simp [step, hraised, halign, hfetch, h]

theorem step_of_decode_ok {s : State} {w : Word} {i : Instr} (hraised : s.raised = none) (halign : pcAligned s.pc = true)
    (hfetch : fetchWord s = .ok w) (h : decodeWord w = .ok i) : step s = exec i s := by
  simp [step, hraised, halign, hfetch, h]

theorem step_of_raised {s : State} {kind : Interrupt} (h : s.raised = some kind) : step s = .fault (.runEnded kind) := by
  simp [step, h]

/-- Settles O10: the last branch of a step. -/
theorem stepRunsTheDecodedInstruction : Obligations.StepRunsTheDecodedInstruction := fun _ _ _ hraised halign hfetch h =>
  step_of_decode_ok hraised halign hfetch h

theorem toNat_wordOfBytes_bigEndian (b0 b1 b2 b3 : Byte) : (wordOfBytes .bigEndian b0 b1 b2 b3).toNat =
    b0.toNat * 2 ^ 24 + b1.toNat * 2 ^ 16 + b2.toNat * 2 ^ 8 + b3.toNat := by
  have h1 := b1.isLt
  have h2 := b2.isLt
  have h3 := b3.isLt
  show (b0 ++ b1 ++ b2 ++ b3).toNat = _
  rw [BitVec.toNat_append, BitVec.toNat_append, BitVec.toNat_append, ← Nat.shiftLeft_add_eq_or_of_lt h1,
    ← Nat.shiftLeft_add_eq_or_of_lt h2, ← Nat.shiftLeft_add_eq_or_of_lt h3]
  simp only [Nat.shiftLeft_eq]
  omega

/-- Settles O11: the first byte is the most significant one. -/
theorem fetchedWordIsBigEndian : Obligations.FetchedWordIsBigEndian := fun s b0 b1 b2 b3 horder h0 h1 h2 h3 =>
  ⟨wordOfBytes .bigEndian b0 b1 b2 b3, by simp [fetchWord, h0, h1, h2, h3, horder], toNat_wordOfBytes_bigEndian b0 b1 b2 b3⟩

/-- Settles O12: the branch of a step before the fetch. -/
theorem misalignedPcIsRefused : Obligations.MisalignedPcIsRefused := fun _ hraised h =>
  step_of_misaligned hraised (by simpa [pcAligned] using h)

/-- The fetch stops at the first of its four bytes that instruction memory does not hold (rule R51). -/
theorem fetchWord_of_first_missing {s : State} {k : Nat} (hk : k < 4)
    (hheld : ∀ j < k, (s.mem.read (s.pc + BitVec.ofNat 32 j)).isSome = true)
    (hmissing : s.mem.read (s.pc + BitVec.ofNat 32 k) = none) :
    fetchWord s = .error (s.pc + BitVec.ofNat 32 k) := by
  have hbyte (j : Nat) (hj : j < k) : ∃ b, s.mem.read (s.pc + BitVec.ofNat 32 j) = some b :=
    Option.isSome_iff_exists.1 (hheld j hj)
  have hfirst : s.pc + BitVec.ofNat 32 0 = s.pc := BitVec.add_zero s.pc
  match k, hk with
  | 0, _ =>
    rw [hfirst] at hmissing
    simp [fetchWord, hmissing]
  | 1, _ =>
    obtain ⟨b0, h0⟩ := hbyte 0 (by omega)
    rw [hfirst] at h0
    simp [fetchWord, h0, hmissing]
  | 2, _ =>
    obtain ⟨b0, h0⟩ := hbyte 0 (by omega)
    obtain ⟨b1, h1⟩ := hbyte 1 (by omega)
    rw [hfirst] at h0
    simp [fetchWord, h0, h1, hmissing]
  | 3, _ =>
    obtain ⟨b0, h0⟩ := hbyte 0 (by omega)
    obtain ⟨b1, h1⟩ := hbyte 1 (by omega)
    obtain ⟨b2, h2⟩ := hbyte 2 (by omega)
    rw [hfirst] at h0
    simp [fetchWord, h0, h1, h2, hmissing]

/-- Settles O13: the fetch names the first missing byte, and the step faults with it. -/
theorem fetchOutsideMemoryIsStuck : Obligations.FetchOutsideMemoryIsStuck := fun _ _ hraised halign hk hheld hmissing =>
  step_of_fetch_error hraised (by simpa [pcAligned] using halign) (fetchWord_of_first_missing hk hheld hmissing)

/-- Settles O14: the decoder rejects the word by name, and the step refuses it. -/
theorem unmatchedWordIsRefused : Obligations.UnmatchedWordIsRefused := fun _ _ hraised halign hfetch h =>
  step_of_decode_error hraised halign hfetch (decodeWord_of_no_row h)

theorem fetchWord_withFetchWord (s : State) (w : Word) : fetchWord (s.withFetchWord 32 w.toNat) = .ok w := by
  have hw : BitVec.ofNat 32 (w.toNat % 2 ^ 32) = w := by
    rw [Nat.mod_eq_of_lt w.isLt, BitVec.ofNat_toNat, BitVec.setWidth_eq]
  have hplace : fetchWord (s.withFetchWord 32 w.toNat) = fetchWord (s.placeWord (BitVec.ofNat 32 (w.toNat % 2 ^ 32))) := rfl
  rw [hplace, hw, fetchWord_placeWord]

/-- Settles O15: the placed word is fetched, and the encoding decodes to the instruction. -/
theorem placedInstructionRunsNext : Obligations.PlacedInstructionRunsNext := fun s i halign =>
  step_of_decode_ok rfl halign (fetchWord_withFetchWord s (encode i)) (decodeWord_encode i)

/-- What a step that answers a next state did: it ran one instruction to its end, from an aligned `pc`. -/
theorem step_eq_finish {s t : State} (h : step s = .next t) :
    pcAligned s.pc = true ∧ ∃ i : Instr, t = s.finish i.rD (s.effect i) := by
  obtain ⟨-, halign, w, i, -, -, hexec⟩ := step_eq_next s t h
  exact ⟨halign, i, (exec_eq_next i s t hexec).2⟩

theorem step_keeps_mem_cfg {s t : State} (h : step s = .next t) : t.mem = s.mem ∧ t.cfg = s.cfg := by
  obtain ⟨-, i, rfl⟩ := step_eq_finish h
  obtain ⟨hcfg, hmem, -⟩ := s.finish_frame i.rD (s.effect i)
  exact ⟨hmem, hcfg⟩

/-- Settles O16, by induction on the steps allowed: the run ends where the end address is reached, and each step before
keeps instruction memory and the parameters. -/
theorem normalEndIsAtTheEndAddress : Obligations.NormalEndIsAtTheEndAddress := by
  intro endPc n
  induction n with
  | zero =>
    intro s t h
    unfold runUntil at h
    split at h
    next => cases h
    next hraised =>
      split_ifs at h with hpc
      cases h
      exact ⟨hpc, hraised, rfl, rfl⟩
  | succ n ih =>
    intro s t h
    unfold runUntil at h
    split at h
    next => cases h
    next hraised =>
      split_ifs at h with hpc
      · cases h
        exact ⟨hpc, hraised, rfl, rfl⟩
      · split at h
        next u hstep =>
          obtain ⟨hmem, hcfg⟩ := step_keeps_mem_cfg hstep
          obtain ⟨hend, hnone, hmem', hcfg'⟩ := ih u t h
          exact ⟨hend, hnone, hmem'.trans hmem, hcfg'.trans hcfg⟩
        next => cases h
        next => cases h

theorem State.reset_readGpr (r : RegNum) : State.reset.readGpr r = 0#64 := by
  simp [State.readGpr, State.reset]

theorem State.reset_scr (b : ScrBit) : State.reset.scr b = false := BitVec.getLsbD_zero

/-- Settles O17: the reset value of each field, and the fetch from the empty memory. -/
theorem resetStateAsLogged : Obligations.ResetStateAsLogged :=
  ⟨State.reset_readGpr, State.reset_scr, rfl, rfl, rfl, rfl, rfl, rfl, rfl, rfl, rfl, rfl, rfl, rfl,
    step_of_fetch_error rfl rfl rfl⟩

/-- Settles O19: the empty memory, the reset address, and no custom entry. -/
theorem resetMeetsTheInvariant : Obligations.ResetMeetsTheInvariant :=
  ⟨State.reset_mem_wf, by decide, State.reset_handlersAligned⟩

/-- An instruction ends at a multiple of 4: at the next instruction or at a handler (rules R25, R53, R210). -/
theorem State.pcAligned_finish (s : State) (rD : RegNum) (e : Effect) (halign : pcAligned s.pc = true)
    (hhandlers : s.handlersAligned) : pcAligned (s.finish rD e).pc = true := by
  rcases s.finish_cases rD e with ⟨-, hf⟩ | ⟨k, -, hf⟩ <;> rw [hf]
  · simpa using pcAligned_add_four s.pc halign
  · exact State.pcAligned_takeInterrupt _ k (by simpa using halign)
      (by simpa [State.handlersAligned] using hhandlers)

/-- Settles O20: memory and the parameters are those before the step, and an instruction ends at an aligned `pc`. -/
theorem everyStepKeepsTheInvariant : Obligations.EveryStepKeepsTheInvariant := by
  rintro s t ⟨hwf, halign, hhandlers⟩ h
  obtain ⟨hmem, hcfg⟩ := step_keeps_mem_cfg h
  obtain ⟨-, i, rfl⟩ := step_eq_finish h
  refine ⟨hmem ▸ hwf, s.pcAligned_finish i.rD _ halign hhandlers, ?_⟩
  simpa only [State.handlersAligned, hcfg] using hhandlers

/-- An instruction leaves a bit that none writes as it was (rules R31, R32). -/
theorem State.scr_finish_unwritten (s : State) (i : Instr) (b : ScrBit) (hb : b ∈ unwrittenBits) :
    (s.finish i.rD (s.effect i)).scr b = s.scr b := by
  obtain ⟨-, -, hspefscr, -⟩ := s.finish_frame i.rD (s.effect i)
  simp only [State.scr, hspefscr, scrGet_effect_unwritten s i b hb]

/-- The rounding mode is read from two bits alone (rule R31). -/
theorem roundingMode_congr {f f' : Word} (hupper : scrGet .frmcUpper f' = scrGet .frmcUpper f)
    (hlower : scrGet .frmcLower f' = scrGet .frmcLower f) : roundingMode f' = roundingMode f := by
  simp only [roundingMode, hupper, hlower]

/-- Settles O21: the frame of an instruction's end, and the bits no instruction writes, FRMC among them. -/
theorem noStepChangesMemoryEnablesOrMode : Obligations.NoStepChangesMemoryEnablesOrMode := by
  intro s t h
  obtain ⟨hmem, hcfg⟩ := step_keeps_mem_cfg h
  obtain ⟨-, i, rfl⟩ := step_eq_finish h
  refine ⟨hmem, hcfg, fun hcustom => s.finish_vectors i.rD _ (.inr hcustom), ?_, fun b hb => ?_⟩
  · exact roundingMode_congr (s.scr_finish_unwritten i .frmcUpper (by decide))
      (s.scr_finish_unwritten i .frmcLower (by decide))
  · exact s.scr_finish_unwritten i b (by revert b; decide)

/-- The devices without the additional instructions (rule R3). -/
theorem hasAdditionalSpe_eq_false_iff (d : Device) :
    d.hasAdditionalSpe = false ↔ d = .mpc5554 ∨ d = .mpc5553 := by
  cases d <;> decide

/-- The SPE is unavailable exactly where the enable is required of the family and is 0 (rule R214). -/
theorem State.speAvailable_eq_false_iff (s : State) (isVector : Bool) :
    s.speAvailable isVector = false ↔
      (if isVector then s.cfg.speEnableVector else s.cfg.speEnableScalar) = true ∧ msrGet .spe s.msr = false := by
  simp [State.speAvailable]

/-- Settles O24: the two checks before an instruction, each as the statement's condition. -/
theorem instructionsRunExactlyWhenAvailable : Obligations.InstructionsRunExactlyWhenAvailable := by
  intro i s
  simp only [← hasAdditionalSpe_eq_false_iff, ← State.speAvailable_eq_false_iff]
  refine ⟨fun hlacks => ?_, fun hhas hclosed => ?_, fun hhas hopen => ?_⟩
  · simp [exec_eq, State.whenExecutable, hlacks]
  · simp [exec_eq, State.whenExecutable, hhas, hclosed]
  · exact ⟨_, exec_of_executable i s ⟨by simpa using hhas, by simpa using hopen⟩⟩

end Sys2Proof.Machine

/-! Spec 41_vector_fp_multiply_add.md rule R154, 42_scalar_fp_multiply_add.md rule R175 and 60_exceptions.md rule R203: the
effect of an instruction in each of its four outcomes, and the reads of SPEFSCR after it. -/

namespace Sys2Proof.Machine

/-- A bit of SPEFSCR after a status bit is "set appropriately" (rule R121). -/
theorem scrGet_scrStatus_eq_statusAfter (cfg : Config) (b c : ScrBit) (cond : Bool) (w : Word) :
    scrGet c (scrStatus cfg b cond w) = if c = b then statusAfter cfg cond (scrGet c w) else scrGet c w := by
  rw [scrGet_scrStatus]
  by_cases h : c = b
  · subst h
    cases ha : cfg.statusBitsAssigned <;> simp [statusAfter, ha]
  · simp [h]

/-- An element that takes the overflow or underflow interrupt (row 2 of rule R203). -/
def rangeCause (f : Word) (r : ElemResult) : Bool := (scrGet .fovfe f && r.ovf) || (scrGet .funfe f && r.unf)

/-- An element of a scalar instruction whose guard bits are cleared (rule R123). -/
def ElemResult.signalled (r : ElemResult) : Bool := r.inv || r.ovf || r.unf

/-- FINXS after rule R124: set by an inexact event, otherwise kept. -/
def State.withInexact (s : State) (i : Instr) (w : Word) : Word := if s.inexactEvent i then scrSet .finxs true w else w

theorem State.scrGet_withInexact (s : State) (i : Instr) (w : Word) (b : ScrBit) :
    scrGet b (s.withInexact i w) = if b = .finxs then decide (s.inexactEvent i) || scrGet b w else scrGet b w := by
  unfold State.withInexact
  split_ifs <;> simp_all [scrGet_scrSet]

/-- The word an instruction draws for the bits that hold `any` value (rules R34, R123). -/
def State.drawn (s : State) : Word := (Config.draw s.draws).spefscr

/-- SPEFSCR of a vector instruction after stage 1 of rule R154: the drawn bits and FINVH, FINV. -/
def State.vectorInvalidStatus (s : State) (i : Instr) : Word :=
  scrStatus s.cfg .finv (s.lowResult i).inv
    (scrStatus s.cfg .finvh (s.highResult i).inv (scrDraw s.drawn unmentionedBits s.spefscr))

/-- SPEFSCR of a vector instruction with all six status bits (rule R154). -/
def State.vectorStatus (s : State) (i : Instr) : Word :=
  scrStatus s.cfg .funf (s.lowResult i).unf (scrStatus s.cfg .funfh (s.highResult i).unf
    (scrStatus s.cfg .fovf (s.lowResult i).ovf (scrStatus s.cfg .fovfh (s.highResult i).ovf (s.vectorInvalidStatus i))))

/-- SPEFSCR of a scalar instruction after stage 1 of rule R175: the drawn bits and FINV. -/
def State.scalarInvalidStatus (s : State) (i : Instr) : Word :=
  scrStatus s.cfg .finv (s.lowResult i).inv (scrDraw s.drawn (unmentionedBits ++ scalarHighBits) s.spefscr)

/-- SPEFSCR of a scalar instruction with all three status bits (rule R175). -/
def State.scalarStatus (s : State) (i : Instr) : Word :=
  scrStatus s.cfg .funf (s.lowResult i).unf (scrStatus s.cfg .fovf (s.lowResult i).ovf (s.scalarInvalidStatus i))

theorem State.scrGet_vectorInvalidStatus (s : State) (i : Instr) (b : ScrBit) (hb : b ∉ unmentionedBits) :
    scrGet b (s.vectorInvalidStatus i) =
      if b = .finv then statusAfter s.cfg (s.lowResult i).inv (s.scr b)
      else if b = .finvh then statusAfter s.cfg (s.highResult i).inv (s.scr b)
      else s.scr b := by
  simp only [State.vectorInvalidStatus, State.scr, scrGet_scrStatus_eq_statusAfter, scrGet_scrDraw, hb, if_false]
  split_ifs <;> simp_all

theorem State.scrGet_vectorStatus (s : State) (i : Instr) (b : ScrBit) (hb : b ∉ unmentionedBits) :
    scrGet b (s.vectorStatus i) =
      if b = .funf then statusAfter s.cfg (s.lowResult i).unf (s.scr b)
      else if b = .funfh then statusAfter s.cfg (s.highResult i).unf (s.scr b)
      else if b = .fovf then statusAfter s.cfg (s.lowResult i).ovf (s.scr b)
      else if b = .fovfh then statusAfter s.cfg (s.highResult i).ovf (s.scr b)
      else scrGet b (s.vectorInvalidStatus i) := by
  simp only [State.vectorStatus, scrGet_scrStatus_eq_statusAfter, s.scrGet_vectorInvalidStatus i b hb]
  split_ifs <;> simp_all

theorem State.scrGet_scalarInvalidStatus (s : State) (i : Instr) (b : ScrBit) (hb : b ∉ unmentionedBits ++ scalarHighBits) :
    scrGet b (s.scalarInvalidStatus i) =
      if b = .finv then statusAfter s.cfg (s.lowResult i).inv (s.scr b) else s.scr b := by
  simp only [State.scalarInvalidStatus, State.scr, scrGet_scrStatus_eq_statusAfter, scrGet_scrDraw, hb, if_false]

theorem State.scrGet_scalarStatus (s : State) (i : Instr) (b : ScrBit) (hb : b ∉ unmentionedBits ++ scalarHighBits) :
    scrGet b (s.scalarStatus i) =
      if b = .funf then statusAfter s.cfg (s.lowResult i).unf (s.scr b)
      else if b = .fovf then statusAfter s.cfg (s.lowResult i).ovf (s.scr b)
      else scrGet b (s.scalarInvalidStatus i) := by
  simp only [State.scalarStatus, scrGet_scrStatus_eq_statusAfter, s.scrGet_scalarInvalidStatus i b hb]
  split_ifs <;> simp_all

section Outcomes

variable {s : State} {i : Instr}

theorem State.invalidHit_iff_of_vector (hv : i.isVector = true) :
    s.invalidHit i ↔ (scrGet .finve s.spefscr && ((s.highResult i).inv || (s.lowResult i).inv)) = true := by
  simp [State.invalidHit, State.scr, s.elements_vector i hv]

theorem State.rangeHit_iff_of_vector (hv : i.isVector = true) :
    s.rangeHit i ↔ (rangeCause s.spefscr (s.highResult i) || rangeCause s.spefscr (s.lowResult i)) = true := by
  simp [State.rangeHit, State.scr, rangeCause, s.elements_vector i hv]

theorem State.inexactEvent_iff_of_vector (hv : i.isVector = true) :
    s.inexactEvent i ↔ ((s.highResult i).inx || (s.lowResult i).inx || (s.highResult i).ovf || (s.lowResult i).ovf
      || (s.highResult i).unf || (s.lowResult i).unf) = true := by
  simp only [State.inexactEvent, s.elements_vector i hv, List.exists_mem_cons_iff, List.not_mem_nil, false_and, exists_false,
    or_false, Bool.or_eq_true]
  tauto

theorem State.invalidHit_iff_of_scalar (hv : i.isVector = false) :
    s.invalidHit i ↔ (scrGet .finve s.spefscr && (s.lowResult i).inv) = true := by
  simp [State.invalidHit, State.scr, s.elements_scalar i hv]

theorem State.rangeHit_iff_of_scalar (hv : i.isVector = false) :
    s.rangeHit i ↔ rangeCause s.spefscr (s.lowResult i) = true := by
  simp [State.rangeHit, State.scr, rangeCause, s.elements_scalar i hv]

theorem State.inexactEvent_iff_of_scalar (hv : i.isVector = false) :
    s.inexactEvent i ↔ ((s.lowResult i).inx || (s.lowResult i).ovf || (s.lowResult i).unf) = true := by
  simp [State.inexactEvent, s.elements_scalar i hv, or_assoc]

/-- Rule R154 with its conditions as those of rule R203. -/
theorem State.effect_vector (hv : i.isVector = true) :
    s.effect i =
      if s.invalidHit i then
        { dest := none
          spefscr := clearLowGuardOrDraw (s.lowResult i).inv s.drawn
            (clearHighGuardOrDraw (s.highResult i).inv s.drawn (s.vectorInvalidStatus i))
          raises := some (.efpData .invalid) }
      else if s.rangeHit i then
        { dest := none
          spefscr := clearLowGuardOrDraw ((s.lowResult i).inv || rangeCause s.spefscr (s.lowResult i)) s.drawn
            (clearHighGuardOrDraw ((s.highResult i).inv || rangeCause s.spefscr (s.highResult i)) s.drawn (s.vectorStatus i))
          raises := some (.efpData .overflowOrUnderflow) }
      else if s.roundHit i then
        { dest := some (joinElements (s.highResult i).truncated (s.lowResult i).truncated)
          spefscr := putLowGuard (!(s.lowResult i).inv && (s.lowResult i).g) (!(s.lowResult i).inv && (s.lowResult i).x)
            (putHighGuard (!(s.highResult i).inv && (s.highResult i).g) (!(s.highResult i).inv && (s.highResult i).x)
              (s.withInexact i (s.vectorStatus i)))
          raises := some .efpRound }
      else
        { dest := some (joinElements (s.highResult i).rounded (s.lowResult i).rounded)
          spefscr := clearLowGuardOrDraw (s.lowResult i).inv s.drawn
            (clearHighGuardOrDraw (s.highResult i).inv s.drawn (s.withInexact i (s.vectorStatus i)))
          raises := none } := by
  have hround : s.roundHit i ↔ (((s.highResult i).inx || (s.lowResult i).inx || (s.highResult i).ovf || (s.lowResult i).ovf
      || (s.highResult i).unf || (s.lowResult i).unf) && scrGet .finxe s.spefscr) = true := by
    rw [State.roundHit, State.inexactEvent_iff_of_vector hv, Bool.and_eq_true, and_comm]
    rfl
  simp only [State.effect, hv, if_true, State.withInexact, hround, State.invalidHit_iff_of_vector hv,
    State.rangeHit_iff_of_vector hv, State.inexactEvent_iff_of_vector hv]
  rfl

/-- Rule R175 with its conditions as those of rule R203. -/
theorem State.effect_scalar (hv : i.isVector = false) :
    s.effect i =
      if s.invalidHit i then
        { dest := none
          spefscr := putLowGuard false false (putHighGuard false false (s.scalarInvalidStatus i))
          raises := some (.efpData .invalid) }
      else if s.rangeHit i then
        { dest := none
          spefscr := putLowGuard false false (putHighGuard false false (s.scalarStatus i))
          raises := some (.efpData .overflowOrUnderflow) }
      else if s.roundHit i then
        { dest := some (replaceLow (s.readGpr i.rD) (s.lowResult i).truncated)
          spefscr := putLowGuard (!(s.lowResult i).signalled && (s.lowResult i).g)
            (!(s.lowResult i).signalled && (s.lowResult i).x)
            (putHighGuard false false (s.withInexact i (s.scalarStatus i)))
          raises := some .efpRound }
      else
        { dest := some (replaceLow (s.readGpr i.rD) (s.lowResult i).rounded)
          spefscr := clearLowGuardOrDraw (s.lowResult i).signalled s.drawn
            (clearHighGuardOrDraw (s.lowResult i).signalled s.drawn (s.withInexact i (s.scalarStatus i)))
          raises := none } := by
  have hround : s.roundHit i ↔ (((s.lowResult i).inx || (s.lowResult i).ovf || (s.lowResult i).unf)
      && scrGet .finxe s.spefscr) = true := by
    rw [State.roundHit, State.inexactEvent_iff_of_scalar hv, Bool.and_eq_true, and_comm]
    rfl
  simp only [State.effect, hv, Bool.false_eq_true, if_false, State.withInexact, hround, State.invalidHit_iff_of_scalar hv,
    State.rangeHit_iff_of_scalar hv, State.inexactEvent_iff_of_scalar hv]
  rfl

end Outcomes

end Sys2Proof.Machine

/-! Spec 41_vector_fp_multiply_add.md, 42_scalar_fp_multiply_add.md and 60_exceptions.md section 1: what each of the four
outcomes of an instruction leaves in rD, SPEFSCR, `pc` and the exception registers. -/

namespace Sys2Proof.Machine

theorem State.scr_applyEffect (s : State) (rD : RegNum) (e : Effect) (b : ScrBit) :
    (s.applyEffect rD e).scr b = scrGet b e.spefscr := rfl

theorem State.applyEffect_readGpr_of_dest_none (s : State) (rD : RegNum) {e : Effect} (h : e.dest = none) (r : RegNum) :
    (s.applyEffect rD e).readGpr r = s.readGpr r :=
  State.readGpr_congr _ _ _ (s.applyEffect_gpr_none rD e h)

theorem exec_of_completes {s : State} {i : Instr} (hexec : s.executable i.isVector) (h : (s.effect i).raises = none) :
    exec i s = .next (s.applyEffect i.rD (s.effect i)).advancePc := by
  rw [exec_of_executable i s hexec, State.finish, h]

theorem exec_of_raises {s : State} {i : Instr} {k : Interrupt} (hexec : s.executable i.isVector)
    (h : (s.effect i).raises = some k) : exec i s = .next ((s.applyEffect i.rD (s.effect i)).takeInterrupt k) := by
  rw [exec_of_executable i s hexec, State.finish, h]

/-- Settles O25: the last branch of rule R154, then one read of the resulting state for each clause. -/
theorem vectorStoresRoundedElements : Obligations.VectorStoresRoundedElements := by
  rintro i s hv hexec ⟨hinvalid, hrange, hround⟩
  have he := s.effect_vector hv
  rw [if_neg hinvalid, if_neg hrange, if_neg hround] at he
  refine ⟨_, exec_of_completes hexec (by rw [he]), ?_⟩
  simp +contextual [State.applyEffect_readGpr_dest, State.scr, he, BitVec.toNat_add, scrGet_clearLowGuardOrDraw,
    scrGet_clearHighGuardOrDraw, State.scrGet_withInexact, State.scrGet_vectorStatus, State.scrGet_vectorInvalidStatus,
    unmentionedBits, or_comm]

/-- Settles O26: the first branch of rule R154. -/
theorem vectorInvalidInterrupt : Obligations.VectorInvalidInterrupt := by
  intro i s hv hexec hinvalid
  have he := s.effect_vector hv
  rw [if_pos hinvalid] at he
  refine ⟨_, exec_of_raises hexec (by rw [he]), by simp, by simp, s.applyEffect_readGpr_of_dest_none _ (by rw [he]), ?_⟩
  simp +contextual [State.scr_applyEffect, he, scrGet_clearLowGuardOrDraw, scrGet_clearHighGuardOrDraw,
    State.scrGet_vectorInvalidStatus, unmentionedBits]

/-- Settles O27: the second branch of rule R154. -/
theorem vectorRangeInterrupt : Obligations.VectorRangeInterrupt := by
  intro i s hv hexec hinvalid hrange causes
  have he := s.effect_vector hv
  rw [if_neg hinvalid, if_pos hrange] at he
  have hcauses (r : ElemResult) : causes r ↔ (r.inv || rangeCause s.spefscr r) = true := by
    simp [causes, rangeCause, State.scr]
  refine ⟨_, exec_of_raises hexec (by rw [he]), by simp, by simp, s.applyEffect_readGpr_of_dest_none _ (by rw [he]), ?_⟩
  simp +contextual [State.scr_applyEffect, he, hcauses, -Bool.or_eq_true, -Bool.not_or, scrGet_clearLowGuardOrDraw,
    scrGet_clearHighGuardOrDraw, State.scrGet_vectorStatus, State.scrGet_vectorInvalidStatus, unmentionedBits]

/-- Settles O28: the third branch of rule R154. -/
theorem vectorRoundInterrupt : Obligations.VectorRoundInterrupt := by
  intro i s hv hexec hinvalid hrange hround
  have he := s.effect_vector hv
  rw [if_neg hinvalid, if_neg hrange, if_pos hround] at he
  refine ⟨_, exec_of_raises hexec (by rw [he]), by simp, by simp, by rw [s.applyEffect_readGpr_dest, he]; rfl,
    s.applyEffect_readGpr_ne _ _, ?_⟩
  simp [State.scr_applyEffect, he, hround.2, scrGet_putLowGuard, scrGet_putHighGuard, State.scrGet_withInexact,
    State.scrGet_vectorStatus, State.scrGet_vectorInvalidStatus, unmentionedBits]

/-- Settles O29: the last branch of rule R175. -/
theorem scalarStoresRoundedLowElement : Obligations.ScalarStoresRoundedLowElement := by
  rintro i s hv hexec ⟨hinvalid, hrange, hround⟩
  have he := s.effect_scalar hv
  rw [if_neg hinvalid, if_neg hrange, if_neg hround] at he
  have hsignalled : (s.lowResult i).inv = true ∨ (s.lowResult i).ovf = true ∨ (s.lowResult i).unf = true ↔
      (s.lowResult i).signalled = true := by simp [ElemResult.signalled, or_assoc]
  rw [hsignalled]
  refine ⟨_, exec_of_completes hexec (by rw [he]), ?_⟩
  simp +contextual [State.applyEffect_readGpr_dest, State.scr, he, BitVec.toNat_add, scrGet_clearLowGuardOrDraw,
    scrGet_clearHighGuardOrDraw, State.scrGet_withInexact, State.scrGet_scalarStatus, State.scrGet_scalarInvalidStatus,
    unmentionedBits, scalarHighBits, or_comm]

/-- Settles O30: the first branch of rule R175. -/
theorem scalarInvalidInterrupt : Obligations.ScalarInvalidInterrupt := by
  intro i s hv hexec hinvalid
  have he := s.effect_scalar hv
  rw [if_pos hinvalid] at he
  refine ⟨_, exec_of_raises hexec (by rw [he]), by simp, by simp, s.applyEffect_readGpr_of_dest_none _ (by rw [he]), ?_⟩
  have hinv : (s.lowResult i).inv = true := by
    simpa [s.elements_scalar i hv] using hinvalid.2
  simp [State.scr_applyEffect, he, hinv, statusAfter, scrGet_putLowGuard, scrGet_putHighGuard,
    State.scrGet_scalarInvalidStatus, unmentionedBits, scalarHighBits]

/-- Settles O31: the second branch of rule R175. -/
theorem scalarRangeInterrupt : Obligations.ScalarRangeInterrupt := by
  intro i s hv hexec hinvalid hrange
  have he := s.effect_scalar hv
  rw [if_neg hinvalid, if_pos hrange] at he
  refine ⟨_, exec_of_raises hexec (by rw [he]), by simp, by simp, s.applyEffect_readGpr_of_dest_none _ (by rw [he]), ?_⟩
  simp [State.scr_applyEffect, he, scrGet_putLowGuard, scrGet_putHighGuard,
    State.scrGet_scalarStatus, State.scrGet_scalarInvalidStatus, unmentionedBits, scalarHighBits]

/-- Settles O32: the third branch of rule R175. -/
theorem scalarRoundInterrupt : Obligations.ScalarRoundInterrupt := by
  intro i s hv hexec hinvalid hrange hround
  have he := s.effect_scalar hv
  rw [if_neg hinvalid, if_neg hrange, if_pos hround] at he
  refine ⟨_, exec_of_raises hexec (by rw [he]), by simp, by simp, ?_, ?_, s.applyEffect_readGpr_ne _ _, ?_⟩
  · simp [State.applyEffect_readGpr_dest, he]
  · simp [State.applyEffect_readGpr_dest, he]
  simp [State.scr_applyEffect, he, hround.2, ElemResult.signalled, scrGet_putLowGuard, scrGet_putHighGuard,
    State.scrGet_withInexact, State.scrGet_scalarStatus, State.scrGet_scalarInvalidStatus, unmentionedBits, scalarHighBits]

end Sys2Proof.Machine

/-! Spec 60_exceptions.md rules R200 to R212 and R223, 10_state.md rule R29: which interrupt an instruction raises, and what
the entry and the return do. -/

namespace Sys2Proof.Machine

/-- Which interrupt an instruction raises: the first row of rule R203 whose condition holds. -/
theorem State.raises_effect (s : State) (i : Instr) :
    (s.effect i).raises =
      if s.invalidHit i then some (.efpData .invalid)
      else if s.rangeHit i then some (.efpData .overflowOrUnderflow)
      else if s.roundHit i then some .efpRound
      else none := by
  cases hv : i.isVector
  · simp only [State.effect_scalar hv, apply_ite Effect.raises]
  · simp only [State.effect_vector hv, apply_ite Effect.raises]

/-- A choice of the first of three rows that holds, read as a condition for each answer. -/
theorem firstRow_iff (invalid range round : Prop) [Decidable invalid] [Decidable range] [Decidable round] :
    let row : Option Interrupt := if invalid then some (.efpData .invalid)
      else if range then some (.efpData .overflowOrUnderflow) else if round then some .efpRound else none
    (row = some (.efpData .invalid) ↔ invalid) ∧ (row = some (.efpData .overflowOrUnderflow) ↔ ¬ invalid ∧ range) ∧
      (row = some .efpRound ↔ ¬ invalid ∧ ¬ range ∧ round) ∧ (row = none ↔ ¬ invalid ∧ ¬ range ∧ ¬ round) := by
  by_cases hinvalid : invalid <;> by_cases hrange : range <;> by_cases hround : round <;> simp [hinvalid, hrange, hround]

/-- Rule R203 as a condition for each interrupt. -/
theorem State.raises_effect_iff (s : State) (i : Instr) :
    ((s.effect i).raises = some (.efpData .invalid) ↔ s.invalidHit i) ∧
      ((s.effect i).raises = some (.efpData .overflowOrUnderflow) ↔ ¬ s.invalidHit i ∧ s.rangeHit i) ∧
      ((s.effect i).raises = some .efpRound ↔ ¬ s.invalidHit i ∧ ¬ s.rangeHit i ∧ s.roundHit i) ∧
      ((s.effect i).raises = none ↔ s.noInterrupt i) := by
  rw [s.raises_effect]
  exact firstRow_iff (s.invalidHit i) (s.rangeHit i) (s.roundHit i)

theorem State.raises_eq_none_iff (s : State) (i : Instr) : (s.effect i).raises = none ↔ s.noInterrupt i := by
  obtain ⟨-, -, -, hnone⟩ := s.raises_effect_iff i
  exact hnone

/-- A destination that the first two rows leave alone. -/
theorem destOfRows_eq_none_iff (invalid range round : Prop) [Decidable invalid] [Decidable range] [Decidable round]
    (truncated rounded : DWord) :
    (if invalid then none else if range then none else if round then some truncated else some rounded) = none ↔
      invalid ∨ range := by
  by_cases hinvalid : invalid <;> by_cases hrange : range <;> by_cases hround : round <;> simp [hinvalid, hrange, hround]

/-- The destination register is left alone exactly by a data interrupt (rule R201). -/
theorem State.dest_effect_eq_none_iff (s : State) (i : Instr) :
    (s.effect i).dest = none ↔ s.invalidHit i ∨ s.rangeHit i := by
  cases hv : i.isVector
  · simp only [State.effect_scalar hv, apply_ite Effect.dest]
    exact destOfRows_eq_none_iff _ _ _ _ _
  · simp only [State.effect_vector hv, apply_ite Effect.dest]
    exact destOfRows_eq_none_iff _ _ _ _ _

/-- Settles O33: the outcome of the instruction is its effect, and the effect follows the rows of rule R203. -/
theorem interruptPriority : Obligations.InterruptPriority := by
  intro i s hexec
  obtain ⟨-, -, hspefscr, hdest, hother⟩ := s.finish_frame i.rD (s.effect i)
  obtain ⟨hinvalid, hrange, hround, hnone⟩ := s.raises_effect_iff i
  exact ⟨⟨_, exec_of_executable i s hexec, hspefscr, hdest, hother, rfl⟩, hinvalid, hrange, hround, hnone,
    s.dest_effect_eq_none_iff i⟩

/-- No outcome of an instruction clears FINXS (rules R29, R124). -/
theorem State.scrGet_finxs_effect (s : State) (i : Instr) (h : s.scr .finxs = true) :
    scrGet .finxs (s.effect i).spefscr = true := by
  cases hv : i.isVector
  · rw [State.effect_scalar hv]
    split_ifs <;>
      simp [h, scrGet_putLowGuard, scrGet_putHighGuard, scrGet_clearLowGuardOrDraw, scrGet_clearHighGuardOrDraw,
        State.scrGet_withInexact, State.scrGet_scalarStatus, State.scrGet_scalarInvalidStatus, unmentionedBits, scalarHighBits]
  · rw [State.effect_vector hv]
    split_ifs <;>
      simp [h, scrGet_putLowGuard, scrGet_putHighGuard, scrGet_clearLowGuardOrDraw, scrGet_clearHighGuardOrDraw,
        State.scrGet_withInexact, State.scrGet_vectorStatus, State.scrGet_vectorInvalidStatus, unmentionedBits]

/-- Settles O22: a step ends with the SPEFSCR of an instruction's effect. -/
theorem finxsIsNeverCleared : Obligations.FinxsIsNeverCleared := by
  intro s t h hfinxs
  obtain ⟨-, i, rfl⟩ := step_eq_finish h
  obtain ⟨-, -, hspefscr, -⟩ := s.finish_frame i.rD (s.effect i)
  rw [State.scr, hspefscr]
  exact s.scrGet_finxs_effect i hfinxs

/-- The kind of the interrupt of an instruction that raises, by the rows of rule R203. -/
theorem State.exists_raises_of_interrupt {s : State} {i : Instr} (h : ¬ s.noInterrupt i) :
    ∃ k, (s.effect i).raises = some k ∧ (k = .efpData .invalid ↔ s.invalidHit i) ∧
      (k = .efpData .overflowOrUnderflow ↔ ¬ s.invalidHit i ∧ s.rangeHit i) ∧
      (k = .efpRound ↔ ¬ s.invalidHit i ∧ ¬ s.rangeHit i) := by
  obtain ⟨k, hk⟩ := Option.ne_none_iff_exists'.1 (mt (s.raises_eq_none_iff i).1 h)
  obtain ⟨hinvalid, hrange, hround, -⟩ := s.raises_effect_iff i
  rw [hk, Option.some.injEq] at hinvalid hrange hround
  refine ⟨k, hk, hinvalid, hrange, hround.trans ⟨fun ⟨hi, hr, _⟩ => ⟨hi, hr⟩, fun ⟨hi, hr⟩ => ⟨hi, hr, ?_⟩⟩⟩
  exact Classical.not_not.1 fun hn => h ⟨hi, hr, hn⟩

/-- The entry of an instruction that raises: that of a data interrupt for the first two rows of rule R203. -/
theorem State.exists_raises_kind {s : State} {i : Instr} (h : ¬ s.noInterrupt i) :
    ∃ k, (s.effect i).raises = some k ∧ (s.invalidHit i ∨ s.rangeHit i → k.kind = .data) ∧
      (¬ (s.invalidHit i ∨ s.rangeHit i) → k.kind = .round) := by
  obtain ⟨k, hk, -, -, hround⟩ := State.exists_raises_of_interrupt h
  rw [← not_or] at hround
  refine ⟨k, hk, fun hdata => ?_, fun hdata => by rw [hround.2 hdata]; rfl⟩
  cases k with
  | efpData cause => rfl
  | efpRound => exact absurd hdata (hround.1 rfl)

theorem esrOnEntry_eq : esrOnEntry = 0x00000080#32 := by decide

/-- Settles O34: the raise takes the default entry, of which each clause reads one register. -/
theorem interruptEntrySavesAndVectors : Obligations.InterruptEntrySavesAndVectors := by
  intro i s hentry hexec hraises data
  obtain ⟨k, hk, hdata, hround⟩ := State.exists_raises_kind hraises
  refine ⟨_, exec_of_raises hexec hk, ?_⟩
  rw [State.takeInterrupt_embedded _ k (by simpa using hentry)]
  refine ⟨fun h => ?_, fun h => ?_, by simp [embeddedTrapEntry], by simp [embeddedTrapEntry, esrOnEntry_eq], by simp,
    by simp [embeddedTrapEntry], by simp [embeddedTrapEntry], by simp [embeddedTrapEntry], fun b hb => ?_, fun b hb => ?_,
    fun h => ?_, fun h => ?_⟩
  · simp [embeddedTrapEntry, hdata h, savedPc]
  · simp [embeddedTrapEntry, hround h, savedPc, BitVec.toNat_add]
  · have hcleared : b ∈ msrClearedOnEntry := hb
    simp [embeddedTrapEntry, msrGet_msrOnEntry, hcleared]
  · have hkept : b ∉ msrClearedOnEntry := by revert b; decide
    simp [embeddedTrapEntry, msrGet_msrOnEntry, hkept]
  · simp [embeddedTrapEntry, hdata h, State.vectorOffset, toNat_handlerAddress]
  · simp [embeddedTrapEntry, hround h, State.vectorOffset, toNat_handlerAddress]

/-- The address the return takes from SRR0 is SRR0 itself where that is a multiple of 4 (rule R212). -/
theorem returnAddress_of_aligned {w : Word} (h : pcAligned w = true) : w.extractLsb' 2 30 ++ 0#2 = w := by
  simp only [pcAligned, beq_iff_eq] at h
  have hw := w.isLt
  apply BitVec.eq_of_toNat_eq
  rw [BitVec.toNat_append, ← Nat.shiftLeft_add_eq_or_of_lt (0#2).isLt]
  simp only [BitVec.extractLsb'_toNat, Nat.shiftRight_eq_div_pow, Nat.shiftLeft_eq, BitVec.toNat_ofNat]
  omega

theorem pcAligned_savedPc (kind : InterruptKind) {pc : Word} (h : pcAligned pc = true) :
    pcAligned (savedPc kind pc) = true := by
  cases kind with
  | data => exact h
  | round => exact pcAligned_add_four pc h

/-- Settles O35: MSR comes back from SRR1, and SRR0 is an aligned address. -/
theorem returnUndoesEntry : Obligations.ReturnUndoesEntry := by
  intro s kind hentry halign
  have hpc : (s.takeInterrupt kind).returnFromInterrupt.pc = savedPc kind.kind s.pc := by
    simp [s.takeInterrupt_embedded kind hentry, embeddedTrapEntry,
      returnAddress_of_aligned (pcAligned_savedPc kind.kind halign)]
  refine ⟨by simp [s.takeInterrupt_embedded kind hentry, embeddedTrapEntry], ?_, s.takeInterrupt_readGpr kind, by simp⟩
  rw [hpc]
  cases kind <;> rfl

/-- The two interrupts of an unknown entry start at different addresses (rule R211 (c)). -/
theorem State.takeInterrupt_custom_pc_ne (s : State) (n : Nat) (cause : DataCause) (h : s.cfg.trapEntry = .custom n) :
    (s.takeInterrupt .efpRound).pc ≠ (s.takeInterrupt (.efpData cause)).pc := by
  rw [s.takeInterrupt_custom _ n h, s.takeInterrupt_custom _ n h]
  exact vectorsDistinct_separateVectors (openTrapEntry n) s

/-- Settles O36: the frame of an entry, and the terminal and the custom value of the parameter. -/
theorem trapEntryIsAParameter : Obligations.TrapEntryIsAParameter := by
  intro s kind t
  refine ⟨s.takeInterrupt_readGpr kind, s.takeInterrupt_spefscr kind, s.takeInterrupt_mem kind, s.takeInterrupt_cfg kind,
    s.takeInterrupt_terminal kind, fun n entry hcustom hentry =>
      ⟨fun cause => s.takeInterrupt_custom_pc_ne n cause hcustom, fun hdistinct => ?_⟩⟩
  have ht : t = s.enter (entry s kind.kind) := by
    simp only [t, s.takeInterrupt_custom kind n hcustom, customTrapEntry, hentry, separateVectors_of_distinct entry hdistinct]
  simp [ht]

theorem runUntil_of_raised {s : State} {kind : Interrupt} (h : s.raised = some kind) (endPc : Word) (n : Nat) :
    runUntil endPc n s = .raised kind s := by
  cases n <;> simp [runUntil, h]

/-- Settles O37: the terminal entry records the kind in the state at the raise and changes nothing else. -/
theorem terminalRaiseEndsTheRun : Obligations.TerminalRaiseEndsTheRun := by
  intro i s hentry hexec hraises
  obtain ⟨k, hk, hinvalid, hrange, hround⟩ := State.exists_raises_of_interrupt hraises
  refine ⟨_, k, exec_of_raises hexec hk, ?_⟩
  rw [State.takeInterrupt_terminal _ k (by simpa using hentry)]
  exact ⟨rfl, hinvalid, hrange, hround, by simp, by simp, by simp, by simp, by simp, step_of_raised rfl,
    runUntil_of_raised rfl⟩

end Sys2Proof.Machine

/-! Spec 10_state.md rules R24, R26, 20_memory.md rule R50, 41_vector_fp_multiply_add.md rule R155, 42_scalar_fp_multiply_add.md
rule R170 and 60_exceptions.md rule R215: what the end of an instruction leaves alone and what it does not depend on. -/

namespace Sys2Proof.Machine

theorem State.finish_readGpr (s : State) (rD : RegNum) (e : Effect) (r : RegNum) :
    (s.finish rD e).readGpr r = if r = rD then e.dest.getD (s.readGpr rD) else s.readGpr r := by
  obtain ⟨-, -, -, hdest, hother⟩ := s.finish_frame rD e
  split_ifs with h
  · rw [h, hdest]
  · exact hother r h

/-- Only the terminal entry records the raise (rule R210 (a)). -/
theorem State.finish_raised (s : State) (rD : RegNum) (e : Effect) (h : e.raises = none ∨ s.cfg.trapEntry ≠ .terminal) :
    (s.finish rD e).raised = s.raised := by
  rcases s.finish_cases rD e with ⟨-, hf⟩ | ⟨k, hk, hf⟩ <;> rw [hf]
  · simp
  · cases hentry : s.cfg.trapEntry with
    | embedded => simp [State.takeInterrupt_embedded _ k ((s.applyEffect_cfg rD e).symm ▸ hentry)]
    | terminal => simp [hk, hentry] at h
    | custom n => simp [State.takeInterrupt_custom _ k n ((s.applyEffect_cfg rD e).symm ▸ hentry)]

/-- The exception registers keep their values without an interrupt and at a terminal raise (rules R200, R210 (a)). -/
theorem State.finish_exceptionRegs (s : State) (rD : RegNum) (e : Effect)
    (h : e.raises = none ∨ s.cfg.trapEntry = .terminal) :
    (s.finish rD e).msr = s.msr ∧ (s.finish rD e).srr0 = s.srr0 ∧ (s.finish rD e).srr1 = s.srr1 ∧
      (s.finish rD e).esr = s.esr := by
  rcases s.finish_cases rD e with ⟨-, hf⟩ | ⟨k, hk, hf⟩ <;> rw [hf]
  · simp
  · have hentry : s.cfg.trapEntry = .terminal := by simpa [hk] using h
    simp [State.takeInterrupt_terminal _ k ((s.applyEffect_cfg rD e).symm ▸ hentry)]

/-- A scalar instruction that writes rD keeps its high element (rule R170, decision D16). -/
theorem State.highElement_dest_of_scalar (s : State) {i : Instr} (hv : i.isVector = false) :
    highElement ((s.effect i).dest.getD (s.readGpr i.rD)) = highElement (s.readGpr i.rD) := by
  rw [State.effect_scalar hv]
  split_ifs <;> simp

/-- Settles O38: the end of an instruction, field by field. -/
theorem frameOfTheEightInstructions : Obligations.FrameOfTheEightInstructions := by
  intro i s t h
  obtain ⟨-, rfl⟩ := exec_eq_next i s t h
  obtain ⟨hcfg, hmem, -, hdest, hother⟩ := s.finish_frame i.rD (s.effect i)
  rw [← s.raises_eq_none_iff i]
  refine ⟨hother, fun a => by rw [hmem], fun b hb => s.scr_finish_unwritten i b (by revert b; decide), hcfg,
    s.finish_vectors i.rD _, s.finish_raised i.rD _, s.finish_exceptionRegs i.rD _, fun hv => ?_⟩
  rw [hdest, s.highElement_dest_of_scalar hv]

/-- Writing rD and SPEFSCR does not look at memory. -/
theorem State.applyEffect_with_mem (s : State) (m : Memory) (rD : RegNum) (e : Effect) :
    ({ s with mem := m } : State).applyEffect rD e = { s.applyEffect rD e with mem := m } := by
  cases h : e.dest <;> simp [State.applyEffect, h, State.writeGpr]

/-- The end of an instruction does not look at memory, unless it takes an entry of which nothing is known. -/
theorem State.finish_with_mem (s : State) (m : Memory) (rD : RegNum) (e : Effect)
    (h : e.raises = none ∨ s.cfg.trapEntry.isCustom = false) :
    ({ s with mem := m } : State).finish rD e = { s.finish rD e with mem := m } := by
  cases hk : e.raises with
  | none => simp only [State.finish, hk, s.applyEffect_with_mem m]; rfl
  | some k =>
    simp only [State.finish, hk, s.applyEffect_with_mem m]
    cases hentry : s.cfg.trapEntry with
    | embedded =>
      rw [State.takeInterrupt_embedded _ k (by simpa using hentry), State.takeInterrupt_embedded _ k (by simpa using hentry)]
      rfl
    | terminal =>
      rw [State.takeInterrupt_terminal _ k (by simpa using hentry), State.takeInterrupt_terminal _ k (by simpa using hentry)]
    | custom n => simp [hk, hentry, TrapEntryChoice.isCustom] at h

/-- Settles O39: the effect is computed without memory, and so is the end of the instruction. -/
theorem instructionsIgnoreMemory : Obligations.InstructionsIgnoreMemory := by
  intro i s m
  have heffect : ({ s with mem := m } : State).effect i = s.effect i := rfl
  have hexec : exec i { s with mem := m } =
      s.whenExecutable i.isVector (({ s with mem := m } : State).finish i.rD (s.effect i)) := by
    rw [exec_eq, heffect]; rfl
  refine ⟨fun h => ?_, fun r hr => ?_, fun t ht => ?_⟩
  · rw [hexec, exec_eq, s.finish_with_mem m _ _ (by rwa [s.raises_eq_none_iff])]
    unfold State.whenExecutable
    split_ifs <;> rfl
  · rw [exec_eq] at hr
    rw [hexec]
    unfold State.whenExecutable at hr ⊢
    split_ifs at hr ⊢ <;> exact hr
  · obtain ⟨hx, rfl⟩ := exec_eq_next i s t ht
    obtain ⟨hcfg, hmem, hspefscr, -⟩ := ({ s with mem := m } : State).finish_frame i.rD (s.effect i)
    obtain ⟨hcfg', -, hspefscr', -⟩ := s.finish_frame i.rD (s.effect i)
    refine ⟨_, by simp [hexec, State.whenExecutable, hx.1, hx.2]; rfl, fun r => ?_, ?_, ?_, ?_⟩
    · rw [State.finish_readGpr, State.finish_readGpr]; rfl
    · rw [hspefscr, hspefscr']
    · rw [hcfg, hcfg']
    · exact hmem

theorem State.vectorOffset_applyEffect (s : State) (rD : RegNum) (e : Effect) (kind : InterruptKind) :
    (s.applyEffect rD e).vectorOffset kind = s.vectorOffset kind := by
  cases kind <;> simp [State.vectorOffset]

/-- Where an instruction ends: at the next one, at the raise, or at a handler of the default entry (rules R25, R210). -/
theorem State.finish_pc (s : State) (rD : RegNum) (e : Effect) (h : e.raises = none ∨ s.cfg.trapEntry.isCustom = false) :
    (s.finish rD e).pc = e.raises.elim (s.pc + 4#32) fun k =>
      if s.cfg.trapEntry = .terminal then s.pc else handlerAddress s.ivpr (s.vectorOffset k.kind) := by
  rcases s.finish_cases rD e with ⟨hk, hf⟩ | ⟨k, hk, hf⟩ <;> rw [hf, hk, Option.elim]
  · simp
  · cases hentry : s.cfg.trapEntry with
    | embedded =>
      rw [State.takeInterrupt_embedded _ k (by simpa using hentry)]
      simp [embeddedTrapEntry, State.vectorOffset_applyEffect]
    | terminal =>
      rw [State.takeInterrupt_terminal _ k (by simpa using hentry)]
      simp
    | custom n => simp [hk, hentry, TrapEntryChoice.isCustom] at h

/-- Settles O40: `MSR[SPE]` decides whether the instruction runs; the effect and the address it ends at take nothing from
MSR. -/
theorem instructionsIgnoreTheMode : Obligations.InstructionsIgnoreTheMode := by
  intro i s t msr hspe h
  obtain ⟨hx, rfl⟩ := exec_eq_next i s t h
  have heffect : ({ s with msr := msr } : State).effect i = s.effect i := rfl
  have hx' : ({ s with msr := msr } : State).executable i.isVector :=
    ⟨hx.1, by simpa only [State.speAvailable, hspe] using hx.2⟩
  obtain ⟨-, hmem, hspefscr, -⟩ := s.finish_frame i.rD (s.effect i)
  obtain ⟨-, hmem', hspefscr', -⟩ := ({ s with msr := msr } : State).finish_frame i.rD (s.effect i)
  refine ⟨_, exec_of_executable i _ hx', ?_⟩
  rw [heffect, hspefscr, hspefscr', hmem, hmem', ← s.raises_eq_none_iff i]
  refine ⟨fun r => ?_, rfl, rfl, fun hpc => ?_⟩
  · rw [State.finish_readGpr, State.finish_readGpr]; rfl
  · rw [s.finish_pc i.rD _ hpc]
    exact ({ s with msr := msr } : State).finish_pc i.rD _ hpc

/-- What a scalar instruction does to SPEFSCR and to the low element of rD does not depend on the high element of rD. -/
theorem scaStages_congr (cfg : Config) (free f : Word) (l : ElemResult) {D D' : DWord} (h : lowElement D' = lowElement D) :
    (scaStages cfg free f D' l).spefscr = (scaStages cfg free f D l).spefscr ∧
      (scaStages cfg free f D' l).raises = (scaStages cfg free f D l).raises ∧
      lowElement ((scaStages cfg free f D' l).dest.getD D') = lowElement ((scaStages cfg free f D l).dest.getD D) := by
  simp only [scaStages]
  split_ifs <;> simp [h]

theorem State.effect_of_scalar (s : State) {i : Instr} (hv : i.isVector = false) :
    s.effect i = scaStages s.cfg s.drawn s.spefscr (s.readGpr i.rD) (s.lowResult i) := by
  simp only [State.effect, hv, Bool.false_eq_true, if_false]; rfl

/-- The low element's result is computed from the low elements of the general registers. -/
theorem State.lowResult_with_gpr {s : State} {g : Vector DWord 32} (i : Instr)
    (h : ∀ r, lowElement (({ s with gpr := g } : State).readGpr r) = lowElement (s.readGpr r)) :
    ({ s with gpr := g } : State).lowResult i = s.lowResult i := by
  simp only [State.lowResult, h]

/-- The high element's result is computed from the high elements of the general registers. -/
theorem State.highResult_with_gpr {s : State} {g : Vector DWord 32} (i : Instr)
    (h : ∀ r, highElement (({ s with gpr := g } : State).readGpr r) = highElement (s.readGpr r)) :
    ({ s with gpr := g } : State).highResult i = s.highResult i := by
  simp only [State.highResult, h]

/-- Settles O41: the low result is the same, so are SPEFSCR and the interrupt, and with them the address it ends at. -/
theorem scalarIgnoresHighElements : Obligations.ScalarIgnoresHighElements := by
  intro i s s' hv hs hlow t t' ht ht'
  obtain ⟨g, rfl⟩ : ∃ g, s' = { s with gpr := g } := ⟨_, hs⟩
  obtain ⟨-, rfl⟩ := exec_eq_next i _ t ht
  obtain ⟨-, rfl⟩ := exec_eq_next i _ t' ht'
  obtain ⟨hspefscr, hraises, hdest⟩ := scaStages_congr s.cfg s.drawn s.spefscr (s.lowResult i) (hlow i.rD)
  have heffect' : ({ s with gpr := g } : State).effect i = scaStages s.cfg s.drawn s.spefscr
      (({ s with gpr := g } : State).readGpr i.rD) (s.lowResult i) := by
    rw [State.effect_of_scalar _ hv, State.lowResult_with_gpr i hlow]; rfl
  rw [← heffect', ← s.effect_of_scalar hv] at hspefscr hraises hdest
  obtain ⟨-, -, hfinish, -⟩ := s.finish_frame i.rD (s.effect i)
  obtain ⟨-, -, hfinish', -⟩ := ({ s with gpr := g } : State).finish_frame i.rD (({ s with gpr := g } : State).effect i)
  refine ⟨fun r => ?_, by rw [hfinish, hfinish', hspefscr], fun hpc => ?_⟩
  · rw [State.finish_readGpr, State.finish_readGpr]
    split_ifs
    · exact hdest
    · exact hlow r
  · rw [← s.raises_eq_none_iff i] at hpc
    rw [State.finish_pc _ _ _ hpc, State.finish_pc _ _ _ (by rwa [hraises]), hraises]; rfl

theorem State.noInterrupt_of_enables_zero {s : State} (i : Instr)
    (h : ∀ b ∈ [ScrBit.finve, .fovfe, .funfe, .finxe], s.scr b = false) : s.noInterrupt i := by
  have hfinve := h .finve (by decide)
  have hfovfe := h .fovfe (by decide)
  have hfunfe := h .funfe (by decide)
  have hfinxe := h .finxe (by decide)
  refine ⟨fun ⟨he, _⟩ => ?_, fun ⟨r, _, hr⟩ => ?_, fun ⟨he, _⟩ => ?_⟩
  · rw [hfinve] at he; cases he
  · rw [hfovfe, hfunfe] at hr; simp at hr
  · rw [hfinxe] at he; cases he

/-- The general registers after a vector instruction with all enables 0 (rule R154). -/
theorem readGpr_of_vector_enables_zero {i : Instr} {s t : State} (hv : i.isVector = true)
    (henables : ∀ b ∈ [ScrBit.finve, .fovfe, .funfe, .finxe], s.scr b = false) (h : exec i s = .next t) (r : RegNum) :
    t.readGpr r = if r = i.rD then joinElements (s.highResult i).rounded (s.lowResult i).rounded else s.readGpr r := by
  obtain ⟨hx, rfl⟩ := exec_eq_next i s t h
  obtain ⟨hinvalid, hrange, hround⟩ := State.noInterrupt_of_enables_zero i henables
  rw [State.finish_readGpr, State.effect_vector hv, if_neg hinvalid, if_neg hrange, if_neg hround, Option.getD_some]

/-- The status bits after a vector instruction with all enables 0 (rule R154). -/
theorem scr_of_vector_enables_zero {i : Instr} {s t : State} (hv : i.isVector = true)
    (henables : ∀ b ∈ [ScrBit.finve, .fovfe, .funfe, .finxe], s.scr b = false) (h : exec i s = .next t) :
    t.scr .finvh = statusAfter s.cfg (s.highResult i).inv (s.scr .finvh) ∧
      t.scr .finv = statusAfter s.cfg (s.lowResult i).inv (s.scr .finv) ∧
      t.scr .fovfh = statusAfter s.cfg (s.highResult i).ovf (s.scr .fovfh) ∧
      t.scr .fovf = statusAfter s.cfg (s.lowResult i).ovf (s.scr .fovf) ∧
      t.scr .funfh = statusAfter s.cfg (s.highResult i).unf (s.scr .funfh) ∧
      t.scr .funf = statusAfter s.cfg (s.lowResult i).unf (s.scr .funf) := by
  obtain ⟨hx, -⟩ := exec_eq_next i s t h
  obtain ⟨u, hu, -, -, hfinvh, hfinv, hfovfh, hfovf, hfunfh, hfunf, -⟩ :=
    vectorStoresRoundedElements i s hv hx (State.noInterrupt_of_enables_zero i henables)
  obtain rfl : t = u := by simpa [h] using hu
  exact ⟨hfinvh, hfinv, hfovfh, hfovf, hfunfh, hfunf⟩

/-- Settles O42: what a completing vector instruction leaves in the high lane is a function of the high result. -/
theorem highLaneIgnoresLowLane : Obligations.HighLaneIgnoresLowLane := by
  intro i s s' hv hs henables hhigh t t' ht ht'
  obtain ⟨g, rfl⟩ : ∃ g, s' = { s with gpr := g } := ⟨_, hs⟩
  have hresult := State.highResult_with_gpr i hhigh
  have henables' : ∀ b ∈ [ScrBit.finve, .fovfe, .funfe, .finxe], ({ s with gpr := g } : State).scr b = false := henables
  obtain ⟨hfinvh, -, hfovfh, -, hfunfh, -⟩ := scr_of_vector_enables_zero hv henables ht
  obtain ⟨hfinvh', -, hfovfh', -, hfunfh', -⟩ := scr_of_vector_enables_zero hv henables' ht'
  rw [hresult] at hfinvh' hfovfh' hfunfh'
  refine ⟨fun r => ?_, ?_⟩
  · rw [readGpr_of_vector_enables_zero hv henables ht, readGpr_of_vector_enables_zero hv henables' ht', hresult]
    split_ifs
    · simp
    · exact hhigh r
  · simp only [List.forall_mem_cons, List.not_mem_nil, false_implies, implies_true, and_true]
    exact ⟨hfinvh'.trans hfinvh.symm, hfovfh'.trans hfovfh.symm, hfunfh'.trans hfunfh.symm⟩

/-- Settles O43: what a completing vector instruction leaves in the low lane is a function of the low result. -/
theorem lowLaneIgnoresHighLane : Obligations.LowLaneIgnoresHighLane := by
  intro i s s' hv hs henables hlow t t' ht ht'
  obtain ⟨g, rfl⟩ : ∃ g, s' = { s with gpr := g } := ⟨_, hs⟩
  have hresult := State.lowResult_with_gpr i hlow
  have henables' : ∀ b ∈ [ScrBit.finve, .fovfe, .funfe, .finxe], ({ s with gpr := g } : State).scr b = false := henables
  obtain ⟨-, hfinv, -, hfovf, -, hfunf⟩ := scr_of_vector_enables_zero hv henables ht
  obtain ⟨-, hfinv', -, hfovf', -, hfunf'⟩ := scr_of_vector_enables_zero hv henables' ht'
  rw [hresult] at hfinv' hfovf' hfunf'
  refine ⟨fun r => ?_, ?_⟩
  · rw [readGpr_of_vector_enables_zero hv henables ht, readGpr_of_vector_enables_zero hv henables' ht', hresult]
    split_ifs
    · simp
    · exact hlow r
  · simp only [List.forall_mem_cons, List.not_mem_nil, false_implies, implies_true, and_true]
    exact ⟨hfinv'.trans hfinv.symm, hfovf'.trans hfovf.symm, hfunf'.trans hfunf.symm⟩

end Sys2Proof.Machine

/-! Spec 00_scope.md rules R10 to R14, 10_state.md rules R31, R33, 40_fp_common.md rules R101 to R111, R118, R119: the places
of fields, the parts of an element, and the element function where no rounding is needed. -/

namespace Sys2Proof.Machine

theorem getLsbD_eq_true_iff (w : Word) (n : Nat) : w.getLsbD n = true ↔ w.toNat / 2 ^ n % 2 = 1 := by
  rw [BitVec.getLsbD, Nat.testBit_eq_decide_div_mod_eq, decide_eq_true_eq]

theorem scrGet_eq_true_iff (b : ScrBit) (w : Word) : scrGet b w = true ↔ w.toNat / 2 ^ (63 - b.number) % 2 = 1 :=
  getLsbD_eq_true_iff w _

theorem msrGet_eq_true_iff (b : MsrBit) (w : Word) : msrGet b w = true ↔ w.toNat / 2 ^ (63 - b.number) % 2 = 1 :=
  getLsbD_eq_true_iff w _

theorem toNat_highElement (v : DWord) : (highElement v).toNat = v.toNat / 2 ^ 32 := by
  have hv := v.isLt
  simp only [highElement, BitVec.extractLsb'_toNat, Nat.shiftRight_eq_div_pow]
  omega

theorem toNat_lowElement (v : DWord) : (lowElement v).toNat = v.toNat % 2 ^ 32 := by
  simp [lowElement, BitVec.extractLsb'_toNat]

theorem toNat_joinElements (h l : Word) : (joinElements h l).toNat = h.toNat * 2 ^ 32 + l.toNat := by
  show (h ++ l).toNat = _
  rw [BitVec.toNat_append, ← Nat.shiftLeft_add_eq_or_of_lt l.isLt, Nat.shiftLeft_eq]

/-- FRMC is the low two bits of SPEFSCR (rule R31). -/
theorem roundingMode_iff (w : Word) :
    (roundingMode w = .rn ↔ w.toNat % 4 = 0) ∧ (roundingMode w = .rz ↔ w.toNat % 4 = 1) ∧
      (roundingMode w = .rp ↔ w.toNat % 4 = 2) ∧ (roundingMode w = .rm ↔ w.toNat % 4 = 3) := by
  have hupper : scrGet .frmcUpper w = true ↔ w.toNat / 2 ^ 1 % 2 = 1 := scrGet_eq_true_iff .frmcUpper w
  have hlower : scrGet .frmcLower w = true ↔ w.toNat / 2 ^ 0 % 2 = 1 := scrGet_eq_true_iff .frmcLower w
  cases hu : scrGet .frmcUpper w <;> cases hl : scrGet .frmcLower w <;>
    simp only [hu, hl, Bool.false_eq_true, true_iff, false_iff] at hupper hlower <;>
    simp only [roundingMode, hu, hl, reduceCtorEq, true_iff, false_iff] <;> omega

/-- Settles O18: each listed number is the model's, and a bit is read by division. -/
theorem elementsModesAndFieldPlaces : Obligations.ElementsModesAndFieldPlaces := by
  refine ⟨fun v => ⟨toNat_highElement v, toNat_lowElement v⟩, toNat_joinElements, roundingMode_iff, fun p hp w => ?_,
    fun p hp w => ?_⟩
  · have hnumber : p.1.number = p.2 := by revert p; decide
    rw [← hnumber, scrGet_eq_true_iff]
  · have hnumber : p.1.number = p.2 := by revert p; decide
    rw [← hnumber, msrGet_eq_true_iff]

/-! ### The sign bit of an element (rule R13) -/

@[simp] theorem signOf_flipSign (x : Word) : signOf (flipSign x) = !signOf x := by
  simp [signOf, flipSign]

@[simp] theorem expOf_flipSign (x : Word) : expOf (flipSign x) = expOf x := by
  have h : (flipSign x).extractLsb' 23 8 = x.extractLsb' 23 8 := by
    ext i hi
    simp only [flipSign, BitVec.getElem_extractLsb', BitVec.getLsbD_xor]
    interval_cases i <;> simp
  rw [expOf, h, expOf]

@[simp] theorem fracOf_flipSign (x : Word) : fracOf (flipSign x) = fracOf x := by
  have h : (flipSign x).extractLsb' 0 23 = x.extractLsb' 0 23 := by
    ext i hi
    simp only [flipSign, BitVec.getElem_extractLsb', BitVec.getLsbD_xor]
    interval_cases i <;> simp
  rw [fracOf, h, fracOf]

@[simp] theorem flipSign_flipSign (x : Word) : flipSign (flipSign x) = x := by
  simp [flipSign]

/-! ### The branches of the element function (rule R118) -/

@[simp] theorem negateIf_inv (neg : Bool) (r : ElemResult) : (negateIf neg r).inv = r.inv := by cases neg <;> rfl
@[simp] theorem negateIf_ovf (neg : Bool) (r : ElemResult) : (negateIf neg r).ovf = r.ovf := by cases neg <;> rfl
@[simp] theorem negateIf_unf (neg : Bool) (r : ElemResult) : (negateIf neg r).unf = r.unf := by cases neg <;> rfl
@[simp] theorem negateIf_inx (neg : Bool) (r : ElemResult) : (negateIf neg r).inx = r.inx := by cases neg <;> rfl
@[simp] theorem negateIf_g (neg : Bool) (r : ElemResult) : (negateIf neg r).g = r.g := by cases neg <;> rfl
@[simp] theorem negateIf_x (neg : Bool) (r : ElemResult) : (negateIf neg r).x = r.x := by cases neg <;> rfl

theorem negateIf_rounded (op : Op) (r : ElemResult) : (negateIf (negates op) r).rounded = baseOf op r.rounded := by
  cases h : negates op <;> simp [negateIf, baseOf, h]

theorem negateIf_truncated (op : Op) (r : ElemResult) : (negateIf (negates op) r).truncated = baseOf op r.truncated := by
  cases h : negates op <;> simp [negateIf, baseOf, h]

@[simp] theorem baseOf_baseOf (op : Op) (x : Word) : baseOf op (baseOf op x) = x := by
  cases h : negates op <;> simp [baseOf, h]

@[simp] theorem expOf_baseOf (op : Op) (x : Word) : expOf (baseOf op x) = expOf x := by
  cases h : negates op <;> simp [baseOf, h]

@[simp] theorem fracOf_baseOf (op : Op) (x : Word) : fracOf (baseOf op x) = fracOf x := by
  cases h : negates op <;> simp [baseOf, h]

theorem nonzeroResult_inv (cfg : Config) (mode : RoundingMode) (inv productInexact : Bool) (T : Int) (free : Word) :
    (nonzeroResult cfg mode inv productInexact T free).inv = inv := by
  simp only [nonzeroResult]
  split_ifs <;> rfl

/-- A multiplicand that ends the computation at rule R109. -/
def specialMultiplicand (a b : Word) : Prop := expOf a ≠ 0 ∧ expOf b ≠ 0 ∧ (expOf a = 255 ∨ expOf b = 255)

theorem plainProduct_iff_not_special (a b : Word) : plainProduct a b ↔ ¬ specialMultiplicand a b := by
  unfold plainProduct specialMultiplicand
  tauto

/-- The three ways of the element function: rules R109, R111 and R113. -/
theorem elem_branches (a b d : Word) :
    specialMultiplicand a b ∨ (plainProduct a b ∧ expOf d = 255) ∨ (plainProduct a b ∧ expOf d ≠ 255) := by
  rw [plainProduct_iff_not_special]
  tauto

theorem elem_inv (cfg : Config) (op : Op) (isVector : Bool) (mode : RoundingMode) (a b d free : Word) :
    (elem cfg op isVector mode a b d free).inv = invalidInput cfg isVector a b d := by
  rcases elem_branches a b d with ⟨ha, hb, h⟩ | ⟨h, hd⟩ | ⟨h, hd⟩
  · rw [elem_specialMultiplicand cfg op isVector mode a b d free ha hb h]; rfl
  · rw [elem_specialAddend cfg op isVector mode a b d free h hd]; rfl
  · rw [elem_sum cfg op isVector mode a b d free h hd, negateIf_inv]
    split_ifs
    · rfl
    · exact nonzeroResult_inv _ _ _ _ _ _

theorem isBad_iff (x : Word) : isBad x = true ↔ (expOf x = 0 ∧ fracOf x ≠ 0) ∨ expOf x = 255 := by
  simp [isBad, isDenorm, isInfNaN]

/-- Settles O44: every branch answers the condition of rule R104. -/
theorem invalidInputCondition : Obligations.InvalidInputCondition := by
  intro cfg op isVector mode a b d free bad
  simp only [elem_inv, invalidInput, Bool.or_eq_true, Bool.and_eq_true, isBad_iff, bad, or_assoc]

theorem flipSign_saturated (negative : Bool) : flipSign (saturated negative) = saturated (!negative) := by
  cases negative <;> decide

/-- Saturation by the sign of the product (rules R105, R109). -/
theorem saturated_productSign (a b : Word) :
    saturated (productSign a b) = (if signOf a = signOf b then 0x7F7FFFFF#32 else 0xFF7FFFFF#32) ∧
      saturated (!productSign a b) = (if signOf a = signOf b then 0xFF7FFFFF#32 else 0x7F7FFFFF#32) := by
  unfold productSign
  cases signOf a <;> cases signOf b <;> decide

/-- Settles O45: the branch of rule R109, by the sign of the product. -/
theorem specialMultiplicandSaturates : Obligations.SpecialMultiplicandSaturates := by
  intro cfg op isVector mode a b d free ha hb h
  rw [elem_specialMultiplicand cfg op isVector mode a b d free ha hb h]
  have hinv : invalidInput cfg isVector a b d = true := by
    simp only [invalidInput, Bool.or_eq_true, isBad_iff]
    tauto
  refine ⟨?_, rfl, hinv, rfl, rfl, rfl, rfl, rfl⟩
  obtain ⟨hsat, hnot⟩ := saturated_productSign a b
  have hflipped := (flipSign_saturated (productSign a b)).trans hnot
  cases op with
  | madd => exact hsat
  | msub => exact hsat
  | nmadd =>
    simp only [endedResult, specialProductResult]
    rw [hflipped, hsat]
  | nmsub => exact hflipped

/-- Settles O46: the branch of rule R111, one literal for each operation and sign. -/
theorem specialAddendSaturatesBySign : Obligations.SpecialAddendSaturatesBySign := by
  intro cfg op isVector mode a b d free h hd
  rw [elem_specialAddend cfg op isVector mode a b d free h hd]
  refine ⟨?_, rfl, rfl, rfl, rfl, rfl, rfl⟩
  simp only [endedResult]
  cases op <;> cases signOf d <;> rfl

/-- A negated operation gives the result of its base operation with inverted signs, where the branch of rule R109 does
(rule R101). -/
theorem elem_of_negated {cfg : Config} {op neg : Op} (isVector : Bool) (mode : RoundingMode) (a b d free : Word)
    (hsub : subtracts neg = subtracts op) (hop : negates op = false) (hneg : negates neg = true)
    (hspecial : specialMultiplicand a b →
      specialProductResult cfg neg (productSign a b) = flipSign (specialProductResult cfg op (productSign a b))) :
    elem cfg neg isVector mode a b d free = negateIf true (elem cfg op isVector mode a b d free) := by
  rcases elem_branches a b d with hs | ⟨h, hd⟩ | ⟨h, hd⟩
  · obtain ⟨ha, hb, h⟩ := hs
    rw [elem_specialMultiplicand cfg op isVector mode a b d free ha hb h,
      elem_specialMultiplicand cfg neg isVector mode a b d free ha hb h, hspecial ⟨ha, hb, h⟩]
    rfl
  · rw [elem_specialAddend cfg op isVector mode a b d free h hd, elem_specialAddend cfg neg isVector mode a b d free h hd]
    simp only [specialAddendResult, hsub, hop, hneg]
    rfl
  · rw [elem_sum cfg op isVector mode a b d free h hd, elem_sum cfg neg isVector mode a b d free h hd]
    simp only [addend, addendSign, hsub, hop, hneg]
    rfl

/-- Settles O53: the only branch where negation is a parameter is that of a special multiplicand. -/
theorem negatedOperationInvertsTheSign : Obligations.NegatedOperationInvertsTheSign := by
  intro cfg isVector mode a b d free inverted special
  refine ⟨elem_of_negated isVector mode a b d free rfl rfl rfl fun _ => rfl, fun h => ?_, fun hs hcfg => ?_⟩
  · refine elem_of_negated isVector mode a b d free rfl rfl rfl fun hs => ?_
    have hcfg : cfg.nmaddSpecialNegated = true := h.resolve_left (not_not_intro hs)
    simp [specialProductResult, hcfg]
  · obtain ⟨ha, hb, h⟩ := hs
    rw [elem_specialMultiplicand cfg .nmadd isVector mode a b d free ha hb h,
      elem_specialMultiplicand cfg .madd isVector mode a b d free ha hb h]
    simp [specialProductResult, hcfg]

/-- Settles O54: a branch that sets one of the three flags clears the other two. -/
theorem atMostOneOfOvfUnfInx : Obligations.AtMostOneOfOvfUnfInx := by
  intro cfg op isVector mode a b d free
  rcases elem_branches a b d with ⟨ha, hb, h⟩ | ⟨h, hd⟩ | ⟨h, hd⟩
  · simp [elem_specialMultiplicand cfg op isVector mode a b d free ha hb h, endedResult]
  · simp [elem_specialAddend cfg op isVector mode a b d free h hd, endedResult]
  · simp only [elem_sum cfg op isVector mode a b d free h hd, negateIf_ovf, negateIf_unf, negateIf_inx, zeroResult,
      nonzeroResult]
    split_ifs <;> simp

end Sys2Proof.Machine

/-! Spec 40_fp_common.md rules R110, R114 to R117: what `roundParts` computes, over the integers and over the rationals. -/

namespace Sys2Proof.Machine

/-- Does the mode round the decomposed value up in magnitude (rule R114)? -/
def Rounding.up (p : Rounding) (mode : RoundingMode) : Bool := roundsUp mode p.sign p.t p.remainder (2 ^ p.k)

/-- What rule R114 says of the decomposition of a nonzero value. -/
structure Rounding.Decomposes (p : Rounding) (mode : RoundingMode) (T : Int) : Prop where
  sign_eq : p.sign = decide (T < 0)
  two_pow_le : 2 ^ p.k ≤ T.natAbs
  lt_two_pow : T.natAbs < 2 ^ (p.k + 1)
  split : p.t * 2 ^ p.k + p.remainder = T.natAbs * 2 ^ 23
  remainder_lt : p.remainder < 2 ^ p.k
  le_t : 2 ^ 23 ≤ p.t
  t_lt : p.t < 2 ^ 24
  carry : (p.kr = p.k ∧ p.r = p.t + (p.up mode).toNat ∧ p.r < 2 ^ 24) ∨
    (p.kr = p.k + 1 ∧ p.r = 2 ^ 23 ∧ p.t + (p.up mode).toNat = 2 ^ 24)

/-- A carry out of the significand goes into the exponent (rule R114). -/
theorem carried_cases (k : Nat) {t : Nat} (ht : t < 2 ^ 24) (up : Bool) :
    let r := if up then t + 1 else t
    let carry := r == 2 ^ 24
    ((if carry then k + 1 else k) = k ∧ (if carry then 2 ^ 23 else r) = t + up.toNat ∧ (if carry then 2 ^ 23 else r) < 2 ^ 24) ∨
      ((if carry then k + 1 else k) = k + 1 ∧ (if carry then 2 ^ 23 else r) = 2 ^ 23 ∧ t + up.toNat = 2 ^ 24) := by
  cases up
  · simp only [Bool.false_eq_true, if_false, beq_iff_eq, Bool.toNat_false]
    split_ifs <;> omega
  · simp only [if_true, beq_iff_eq, Bool.toNat_true]
    split_ifs <;> omega

theorem roundParts_decomposes (mode : RoundingMode) {T : Int} (hT : T ≠ 0) : (roundParts mode T).Decomposes mode T := by
  have hn : T.natAbs ≠ 0 := Int.natAbs_ne_zero.2 hT
  have hle : 2 ^ T.natAbs.log2 ≤ T.natAbs := Nat.log2_self_le hn
  have hlt : T.natAbs < 2 ^ (T.natAbs.log2 + 1) := Nat.lt_log2_self
  have hpos : 0 < 2 ^ T.natAbs.log2 := by positivity
  have ht : T.natAbs * 2 ^ 23 / 2 ^ T.natAbs.log2 < 2 ^ 24 := by
    rw [Nat.div_lt_iff_lt_mul hpos]
    rw [pow_succ] at hlt
    omega
  refine ⟨rfl, hle, hlt, Nat.div_add_mod' _ _, Nat.mod_lt _ hpos, ?_, ht, ?_⟩
  · show 2 ^ 23 ≤ T.natAbs * 2 ^ 23 / 2 ^ T.natAbs.log2
    rw [Nat.le_div_iff_mul_le hpos]
    omega
  · exact carried_cases T.natAbs.log2 ht _

namespace Rounding.Decomposes

variable {p : Rounding} {mode : RoundingMode} {T : Int}

/-- The rounded significand at its exponent is the truncated one, or the next, at its own (rule R114). -/
theorem rounded_eq (h : p.Decomposes mode T) : p.r * 2 ^ p.kr = (p.t + (p.up mode).toNat) * 2 ^ p.k := by
  rcases h.carry with ⟨hkr, hr, -⟩ | ⟨hkr, hr, hcarry⟩
  · rw [hkr, hr]
  · rw [hkr, hr, hcarry, pow_succ]
    ring

theorem le_r (h : p.Decomposes mode T) : 2 ^ 23 ≤ p.r := by
  have ht := h.le_t
  rcases h.carry with ⟨-, hr, -⟩ | ⟨-, hr, -⟩ <;> omega

theorem r_lt (h : p.Decomposes mode T) : p.r < 2 ^ 24 := by
  rcases h.carry with ⟨-, -, hr⟩ | ⟨-, hr, -⟩ <;> omega

theorem k_le_kr (h : p.Decomposes mode T) : p.k ≤ p.kr := by
  rcases h.carry with ⟨hkr, -⟩ | ⟨hkr, -⟩ <;> omega

end Rounding.Decomposes

theorem Rounding.guard_iff (p : Rounding) : p.guard = true ↔ 2 ^ p.k ≤ 2 * p.remainder := by
  simp [Rounding.guard]

/-- Sticky says that the remainder is neither nothing nor one half (rule R117). -/
theorem Rounding.sticky_iff (p : Rounding) : p.sticky = true ↔ p.remainder ≠ 0 ∧ 2 * p.remainder ≠ 2 ^ p.k := by
  have hpos : 0 < 2 ^ p.k := by positivity
  by_cases hg : p.guard = true
  · have := p.guard_iff.1 hg
    simp only [Rounding.sticky, hg, if_true, decide_eq_true_eq]
    omega
  · have := mt p.guard_iff.2 hg
    simp only [Rounding.sticky, hg, Bool.false_eq_true, if_false, decide_eq_true_eq]
    omega

theorem Rounding.inexact_iff (p : Rounding) : p.inexact = true ↔ p.remainder ≠ 0 := by
  simp [Rounding.inexact]

theorem Rounding.inexact_iff_guard_or_sticky (p : Rounding) :
    p.inexact = true ↔ p.guard = true ∨ p.sticky = true := by
  have hpos : 0 < 2 ^ p.k := by positivity
  rw [p.inexact_iff, p.guard_iff, p.sticky_iff]
  omega

/-- Rounding up from guard, sticky, the parity of the truncated significand, the sign and the mode (rules R114, R117). -/
def roundsUpFrom (mode : RoundingMode) (guard sticky odd negative : Bool) : Bool :=
  match mode with
  | .rn => guard && (sticky || odd)
  | .rz => false
  | .rp => (guard || sticky) && !negative
  | .rm => (guard || sticky) && negative

theorem Rounding.up_eq_roundsUpFrom (p : Rounding) (mode : RoundingMode) :
    p.up mode = roundsUpFrom mode p.guard p.sticky (p.t % 2 == 1) p.sign := by
  have hpos : 0 < 2 ^ p.k := by positivity
  have hguard := p.guard_iff
  have hsticky := p.sticky_iff
  have hany : (p.guard || p.sticky) = decide (0 < p.remainder) := by
    rw [Bool.eq_iff_iff, Bool.or_eq_true, decide_eq_true_eq, ← p.inexact_iff_guard_or_sticky, p.inexact_iff,
      Nat.pos_iff_ne_zero]
  cases mode with
  | rn =>
    rw [Bool.eq_iff_iff]
    simp only [Rounding.up, roundsUp, roundsUpFrom, Bool.or_eq_true, Bool.and_eq_true, decide_eq_true_eq, beq_iff_eq,
      hguard, hsticky]
    omega
  | rz => rfl
  | rp => simp only [Rounding.up, roundsUp, roundsUpFrom, hany]
  | rm => simp only [Rounding.up, roundsUp, roundsUpFrom, hany]

theorem Rounding.up_eq_false_of_remainder_eq_zero {p : Rounding} (h : p.remainder = 0) (mode : RoundingMode) :
    p.up mode = false := by
  have hpos : 0 < 2 ^ p.k := by positivity
  cases mode <;> simp [Rounding.up, roundsUp, h, hpos.ne]

/-- Settles O58: the decomposition of rule R114, with the decision to round up read from guard and sticky. -/
theorem guardAndStickyDetermineTheRounding : Obligations.GuardAndStickyDetermineTheRounding := by
  intro mode T hT p up
  have h := roundParts_decomposes mode hT
  have hup : up = p.up mode := by
    rw [p.up_eq_roundsUpFrom]
    cases mode <;> rfl
  refine ⟨h.le_t, h.t_lt, p.inexact_iff_guard_or_sticky, ?_⟩
  rw [hup, h.rounded_eq]
  cases p.up mode <;> rfl

end Sys2Proof.Machine

/-! Spec 00_scope.md rule R14, 40_fp_common.md rules R110, R114, R117: rounding and truncation as statements about rational
numbers, in units of the last place. -/

namespace Sys2Proof.Machine

/-- The factor of a sign. -/
def signFactor (negative : Bool) : ℚ := if negative then -1 else 1

theorem abs_signFactor (negative : Bool) : |signFactor negative| = 1 := by cases negative <;> simp [signFactor]

theorem signFactor_mul_self (negative : Bool) : signFactor negative * signFactor negative = 1 := by
  cases negative <;> simp [signFactor]

theorem cast_signedInt (negative : Bool) (n : Nat) : (signedInt negative n : ℚ) = signFactor negative * n := by
  cases negative <;> simp [signedInt, signFactor]

namespace Rounding

/-- The unit in the last place of the truncated significand. -/
def ulp (p : Rounding) : ℚ := 2 ^ (p.e - 23)

/-- What truncation leaves out, in units of the last place: `rem` of rule R114. -/
def rest (p : Rounding) : ℚ := p.remainder / 2 ^ p.k

/-- The truncated value. -/
def truncatedRat (p : Rounding) : ℚ := signFactor p.sign * (p.t * p.ulp)

/-- The rounded value. -/
def roundedRat (p : Rounding) (mode : RoundingMode) : ℚ := signFactor p.sign * ((p.t + (p.up mode).toNat) * p.ulp)

/-- What rounding adds to the value, in units of the last place. -/
def roundingError (p : Rounding) (mode : RoundingMode) : ℚ := signFactor p.sign * ((p.up mode).toNat - p.rest)

theorem ulp_pos (p : Rounding) : 0 < p.ulp := zpow_pos (by norm_num) _

theorem two_zpow_e (p : Rounding) : (2 : ℚ) ^ p.e = 2 ^ 23 * p.ulp := by
  rw [ulp, ← zpow_natCast, ← zpow_add₀ (by norm_num)]
  congr 1
  push_cast
  ring

theorem two_zpow_e_add_one (p : Rounding) : (2 : ℚ) ^ (p.e + 1) = 2 ^ 24 * p.ulp := by
  rw [zpow_add_one₀ (by norm_num), two_zpow_e]
  ring

theorem two_zpow_e_sub (p : Rounding) : (2 : ℚ) ^ (p.e - 24) = p.ulp / 2 := by
  rw [ulp, show p.e - 23 = p.e - 24 + 1 by ring, zpow_add_one₀ (by norm_num)]
  ring

/-- The unit in the last place in the integers' unit `2^-300`. -/
theorem ulp_eq (p : Rounding) : p.ulp = 2 ^ p.k / 2 ^ 23 / 2 ^ 300 := by
  have h : p.e - 23 = (p.k : ℤ) - (23 : ℕ) - (300 : ℕ) := by
    simp only [Rounding.e]
    push_cast
    ring
  rw [ulp, h, zpow_sub₀ (by norm_num), zpow_sub₀ (by norm_num), zpow_natCast, zpow_natCast, zpow_natCast]

theorem rest_nonneg (p : Rounding) : 0 ≤ p.rest := by
  unfold rest
  positivity

theorem rest_eq_zero_iff (p : Rounding) : p.rest = 0 ↔ p.remainder = 0 := by
  simp [rest]

theorem guard_iff_half_le_rest (p : Rounding) : p.guard = true ↔ 1 / 2 ≤ p.rest := by
  rw [p.guard_iff, rest, le_div_iff₀ (by positivity), ← Nat.cast_le (α := ℚ)]
  push_cast
  constructor <;> intro h <;> linarith

theorem sticky_iff_rest (p : Rounding) : p.sticky = true ↔ p.rest ≠ 0 ∧ p.rest ≠ 1 / 2 := by
  have hhalf : p.rest = 1 / 2 ↔ 2 * p.remainder = 2 ^ p.k := by
    rw [rest, div_eq_iff (by positivity), ← Nat.cast_inj (R := ℚ)]
    push_cast
    constructor <;> intro h <;> linarith
  rw [p.sticky_iff, ne_eq, ne_eq, ne_eq, ne_eq, p.rest_eq_zero_iff, hhalf]

theorem roundedRat_eq (p : Rounding) (mode : RoundingMode) (q : ℚ) (h : q = signFactor p.sign * ((p.t + p.rest) * p.ulp)) :
    p.roundedRat mode = q + p.roundingError mode * p.ulp := by
  rw [h, roundedRat, roundingError]
  ring

/-- Rounding to nearest is off by at most half a unit, and by half a unit only to an even significand (rule R14). -/
theorem abs_roundingError_rn (p : Rounding) (hrest : p.rest < 1) :
    |p.roundingError .rn| ≤ 1 / 2 ∧ (|p.roundingError .rn| = 1 / 2 → (p.t + (p.up .rn).toNat) % 2 = 0) := by
  have hnonneg := p.rest_nonneg
  rw [roundingError, abs_mul, abs_signFactor, one_mul]
  have hguard := p.guard_iff_half_le_rest
  have hsticky := p.sticky_iff_rest
  cases hup : p.up .rn with
  | false =>
    have hle : p.rest ≤ 1 / 2 ∧ (p.rest = 1 / 2 → p.t % 2 = 0) := by
      rw [p.up_eq_roundsUpFrom] at hup
      by_cases hg : p.guard = true
      · rw [roundsUpFrom, hg, Bool.true_and, Bool.or_eq_false_iff] at hup
        obtain ⟨hs, ht⟩ := hup
        rw [hs] at hsticky
        have hhalf : p.rest = 1 / 2 := by
          by_contra hne
          have := hguard.1 hg
          exact absurd (hsticky.2 ⟨by linarith, hne⟩) (by decide)
        refine ⟨hhalf.le, fun _ => ?_⟩
        simp only [beq_eq_false_iff_ne, ne_eq] at ht
        omega
      · have hlt := lt_of_not_ge (mt hguard.2 hg)
        exact ⟨hlt.le, fun h => absurd h hlt.ne⟩
    simpa [abs_of_nonneg hnonneg] using hle
  | true =>
    have hge : 1 / 2 ≤ p.rest ∧ (p.rest = 1 / 2 → (p.t + 1) % 2 = 0) := by
      rw [p.up_eq_roundsUpFrom, roundsUpFrom, Bool.and_eq_true, Bool.or_eq_true, hguard, hsticky, beq_iff_eq] at hup
      obtain ⟨hg, hs⟩ := hup
      refine ⟨hg, fun hhalf => ?_⟩
      rcases hs with ⟨-, hne⟩ | ht
      · exact absurd hhalf hne
      · omega
    have habs : |((true.toNat : ℕ) : ℚ) - p.rest| = 1 - p.rest := by
      rw [Bool.toNat_true, Nat.cast_one, abs_of_nonneg (by linarith)]
    rw [habs]
    exact ⟨by linarith [hge.1], fun h => hge.2 (by linarith)⟩

theorem up_rz (p : Rounding) : p.up .rz = false := rfl

/-- Away from zero on one side, the significand is rounded up exactly if something is left out. -/
theorem up_eq_decide_rest_pos {p : Rounding} {mode : RoundingMode} (h : p.up mode = decide (0 < p.remainder))
    (hrest : p.rest < 1) :
    p.rest ≤ (p.up mode).toNat ∧ ((p.up mode).toNat : ℚ) < p.rest + 1 := by
  have hnonneg := p.rest_nonneg
  by_cases hr : 0 < p.remainder
  · have hpos : 0 < p.rest := lt_of_le_of_ne hnonneg fun e => hr.ne' (p.rest_eq_zero_iff.1 e.symm)
    rw [h, decide_eq_true hr, Bool.toNat_true, Nat.cast_one]
    constructor <;> linarith
  · have hzero : p.rest = 0 := p.rest_eq_zero_iff.2 (by omega)
    rw [h, decide_eq_false hr, hzero]
    norm_num

/-- Rounding toward plus infinity adds less than a unit (rule R14). -/
theorem roundingError_rp (p : Rounding) (hrest : p.rest < 1) : 0 ≤ p.roundingError .rp ∧ p.roundingError .rp < 1 := by
  have hnonneg := p.rest_nonneg
  cases hs : p.sign with
  | true =>
    have hup : p.up .rp = false := by simp [up, roundsUp, hs]
    simp only [roundingError, hs, hup, signFactor, if_true, Bool.toNat_false, Nat.cast_zero]
    constructor <;> linarith
  | false =>
    obtain ⟨hle, hlt⟩ := up_eq_decide_rest_pos (mode := .rp) (by simp [up, roundsUp, hs]) hrest
    simp only [roundingError, hs, signFactor, Bool.false_eq_true, if_false]
    constructor <;> linarith

/-- Rounding toward minus infinity takes away less than a unit (rule R14). -/
theorem roundingError_rm (p : Rounding) (hrest : p.rest < 1) : p.roundingError .rm ≤ 0 ∧ -1 < p.roundingError .rm := by
  have hnonneg := p.rest_nonneg
  cases hs : p.sign with
  | true =>
    obtain ⟨hle, hlt⟩ := up_eq_decide_rest_pos (mode := .rm) (by simp [up, roundsUp, hs]) hrest
    simp only [roundingError, hs, signFactor, if_true]
    constructor <;> linarith
  | false =>
    have hup : p.up .rm = false := by simp [up, roundsUp, hs]
    simp only [roundingError, hs, hup, signFactor, Bool.false_eq_true, if_false, Bool.toNat_false, Nat.cast_zero]
    constructor <;> linarith

namespace Decomposes

variable {p : Rounding} {mode : RoundingMode} {T : Int}

theorem rest_lt_one (h : p.Decomposes mode T) : p.rest < 1 := by
  rw [rest, div_lt_one (by positivity)]
  exact_mod_cast h.remainder_lt

/-- The magnitude in units of the last place: the truncated significand and what truncation leaves out. -/
theorem abs_eq (h : p.Decomposes mode T) : |(T : ℚ) / 2 ^ 300| = (p.t + p.rest) * p.ulp := by
  have hsplit : (p.t : ℚ) * 2 ^ p.k + p.remainder = |(T : ℚ)| * 2 ^ 23 := by
    rw [← Int.cast_abs, ← Nat.cast_natAbs]
    exact_mod_cast h.split
  have hk : (2 : ℚ) ^ p.k ≠ 0 := by positivity
  have habs : |(T : ℚ)| = (p.t * 2 ^ p.k + p.remainder) / 2 ^ 23 := by
    rw [hsplit, mul_div_assoc, div_self (by norm_num), mul_one]
  have hrest : p.remainder = p.rest * 2 ^ p.k := by rw [rest, div_mul_cancel₀ _ hk]
  rw [abs_div, abs_of_pos (show (0 : ℚ) < 2 ^ 300 by positivity), habs, hrest, ulp_eq]
  generalize (2 : ℚ) ^ 300 = unit
  ring

theorem eq_signFactor_mul (h : p.Decomposes mode T) : (T : ℚ) / 2 ^ 300 = signFactor p.sign * ((p.t + p.rest) * p.ulp) := by
  rw [← h.abs_eq, abs_div, abs_of_pos (show (0 : ℚ) < 2 ^ 300 by positivity), h.sign_eq, ← mul_div_assoc]
  congr 1
  by_cases hT : T < 0
  · have : (T : ℚ) < 0 := by exact_mod_cast hT
    simp [signFactor, hT, abs_of_neg this]
  · have : (0 : ℚ) ≤ T := by exact_mod_cast not_lt.1 hT
    simp [signFactor, hT, abs_of_nonneg this]

theorem le_t_rat (h : p.Decomposes mode T) : (2 : ℚ) ^ 23 ≤ p.t := by exact_mod_cast h.le_t

theorem t_add_one_le_rat (h : p.Decomposes mode T) : (p.t : ℚ) + 1 ≤ 2 ^ 24 := by exact_mod_cast h.t_lt

theorem two_zpow_e_le (h : p.Decomposes mode T) : (2 : ℚ) ^ p.e ≤ |(T : ℚ) / 2 ^ 300| := by
  rw [h.abs_eq, two_zpow_e]
  exact mul_le_mul_of_nonneg_right (by linarith [h.le_t_rat, p.rest_nonneg]) p.ulp_pos.le

theorem lt_two_zpow_e (h : p.Decomposes mode T) : |(T : ℚ) / 2 ^ 300| < (2 : ℚ) ^ (p.e + 1) := by
  rw [h.abs_eq, two_zpow_e_add_one]
  exact mul_lt_mul_of_pos_right (by linarith [h.t_add_one_le_rat, h.rest_lt_one]) p.ulp_pos

/-- The rounded significand at its own exponent is the rounded value. -/
theorem r_mul_two_zpow (h : p.Decomposes mode T) :
    (p.r : ℚ) * 2 ^ (p.er - 23) = (p.t + (p.up mode).toNat) * p.ulp := by
  have hr : (p.r : ℚ) * 2 ^ p.kr = (p.t + (p.up mode).toNat) * 2 ^ p.k := by exact_mod_cast h.rounded_eq
  have her : p.er - 23 = (p.kr : ℤ) - (23 : ℕ) - (300 : ℕ) := by
    simp only [Rounding.er]
    push_cast
    ring
  rw [her, zpow_sub₀ (by norm_num), zpow_sub₀ (by norm_num), zpow_natCast, zpow_natCast, zpow_natCast, ulp_eq,
    ← mul_div_assoc, ← mul_div_assoc, hr]
  generalize (2 : ℚ) ^ 300 = unit
  ring

/-- The integer that `PRODUCT_ROUNDING = single` takes is the rounded value, where no bit is below the integers' unit. -/
theorem roundedVal_eq (h : p.Decomposes mode T) (hk : 23 ≤ p.k) : (p.roundedVal : ℚ) / 2 ^ 300 = p.roundedRat mode := by
  have hdvd : p.r * 2 ^ p.kr / 2 ^ 23 = p.r * 2 ^ (p.kr - 23) := by
    have hkr : 23 ≤ p.kr := hk.trans h.k_le_kr
    rw [show p.kr = p.kr - 23 + 23 by omega, pow_add, ← mul_assoc, Nat.mul_div_cancel _ (by norm_num), Nat.add_sub_cancel]
  have hpow : (2 : ℚ) ^ (p.er - 23) = 2 ^ (p.kr - 23) / 2 ^ 300 := by
    have hkr : 23 ≤ p.kr := hk.trans h.k_le_kr
    have her : p.er - 23 = ((p.kr - 23 : ℕ) : ℤ) - (300 : ℕ) := by
      simp only [Rounding.er]
      push_cast [hkr]
      ring
    rw [her, zpow_sub₀ (by norm_num), zpow_natCast, zpow_natCast]
  rw [Rounding.roundedVal, cast_signedInt, hdvd, roundedRat, ← h.r_mul_two_zpow, hpow]
  generalize (2 : ℚ) ^ 300 = unit
  push_cast
  ring

/-- What rounding adds, in units of the last place. -/
theorem roundedRat_sub (h : p.Decomposes mode T) : p.roundedRat mode - (T : ℚ) / 2 ^ 300 = p.roundingError mode * p.ulp := by
  rw [p.roundedRat_eq mode _ h.eq_signFactor_mul, add_sub_cancel_left]

/-- To nearest, against half a unit. -/
theorem roundedRat_rn (h : p.Decomposes .rn T) :
    |p.roundedRat .rn - (T : ℚ) / 2 ^ 300| ≤ (2 : ℚ) ^ (p.e - 24) ∧
      (|p.roundedRat .rn - (T : ℚ) / 2 ^ 300| = (2 : ℚ) ^ (p.e - 24) → (p.t + (p.up .rn).toNat) % 2 = 0) := by
  obtain ⟨hle, htie⟩ := p.abs_roundingError_rn h.rest_lt_one
  have hhalf : p.ulp / 2 = 1 / 2 * p.ulp := by ring
  rw [h.roundedRat_sub, abs_mul, abs_of_pos p.ulp_pos, two_zpow_e_sub, hhalf]
  exact ⟨mul_le_mul_of_nonneg_right hle p.ulp_pos.le, fun heq => htie (mul_right_cancel₀ p.ulp_pos.ne' heq)⟩

/-- Toward plus infinity, less than a unit above. -/
theorem roundedRat_rp (h : p.Decomposes .rp T) :
    (T : ℚ) / 2 ^ 300 ≤ p.roundedRat .rp ∧ p.roundedRat .rp < (T : ℚ) / 2 ^ 300 + (2 : ℚ) ^ (p.e - 23) := by
  obtain ⟨hle, hlt⟩ := p.roundingError_rp h.rest_lt_one
  rw [← sub_nonneg, ← sub_lt_iff_lt_add', h.roundedRat_sub]
  exact ⟨mul_nonneg hle p.ulp_pos.le, mul_lt_of_lt_one_left p.ulp_pos hlt⟩

/-- Toward minus infinity, less than a unit below. -/
theorem roundedRat_rm (h : p.Decomposes .rm T) :
    p.roundedRat .rm ≤ (T : ℚ) / 2 ^ 300 ∧ (T : ℚ) / 2 ^ 300 - (2 : ℚ) ^ (p.e - 23) < p.roundedRat .rm := by
  obtain ⟨hle, hlt⟩ := p.roundingError_rm h.rest_lt_one
  have hnonpos : p.roundingError .rm * p.ulp ≤ 0 := mul_nonpos_of_nonpos_of_nonneg hle p.ulp_pos.le
  have hgt : -1 * p.ulp < p.roundingError .rm * p.ulp := mul_lt_mul_of_pos_right hlt p.ulp_pos
  rw [← h.roundedRat_sub] at hnonpos hgt
  rw [neg_one_mul, ulp] at hgt
  generalize (T : ℚ) / 2 ^ 300 = q at hnonpos hgt ⊢
  constructor <;> linarith

/-- The value `roundParts` rounds to is the value rounded to 24 bits in the sense of rule R14. -/
theorem roundedTo24_roundedRat (h : p.Decomposes mode T) : roundedTo24 mode ((T : ℚ) / 2 ^ 300) (p.roundedRat mode) := by
  have hulp := p.ulp_pos
  have hm : p.roundedRat mode = (signedInt p.sign (p.t + (p.up mode).toNat) : ℤ) * (2 : ℚ) ^ (p.e - 23) := by
    rw [cast_signedInt, roundedRat, ulp]
    push_cast
    ring
  refine ⟨p.e, signedInt p.sign (p.t + (p.up mode).toNat), h.two_zpow_e_le, h.lt_two_zpow_e, hm, ?_⟩
  cases mode with
  | rn =>
    obtain ⟨hnear, htie⟩ := h.roundedRat_rn
    refine ⟨hnear, fun heq => ?_⟩
    have heven := htie heq
    cases p.sign <;> simp only [signedInt, Bool.false_eq_true, if_true, if_false] <;> omega
  | rz =>
    have hrest := p.rest_nonneg
    have hlt := h.rest_lt_one
    have habs : |p.roundedRat .rz| = p.t * p.ulp := by
      rw [roundedRat, abs_mul, abs_signFactor, up_rz, abs_of_nonneg (by positivity)]
      simp
    simp only [habs, h.abs_eq]
    refine ⟨?_, mul_le_mul_of_nonneg_right (by linarith) hulp.le, ?_⟩
    · have hprod : p.roundedRat .rz * ((T : ℚ) / 2 ^ 300) =
          (signFactor p.sign * signFactor p.sign) * (p.t * p.ulp * ((p.t + p.rest) * p.ulp)) := by
        rw [h.eq_signFactor_mul, roundedRat, up_rz]
        simp
        ring
      rw [hprod, signFactor_mul_self]
      positivity
    · show _ < _ + p.ulp
      nlinarith
  | rp => exact h.roundedRat_rp
  | rm => exact h.roundedRat_rm

end Decomposes

end Rounding

/-- The exponent of a nonzero value is determined by its magnitude. -/
theorem binade_unique {e e' : ℤ} {q : ℚ} (hle : (2 : ℚ) ^ e ≤ q) (hlt : q < (2 : ℚ) ^ (e + 1)) (hle' : (2 : ℚ) ^ e' ≤ q)
    (hlt' : q < (2 : ℚ) ^ (e' + 1)) : e = e' := by
  have h1 := (zpow_lt_zpow_iff_right₀ (by norm_num : (1 : ℚ) < 2)).1 (hle.trans_lt hlt')
  have h2 := (zpow_lt_zpow_iff_right₀ (by norm_num : (1 : ℚ) < 2)).1 (hle'.trans_lt hlt)
  omega

/-- Two whole multiples of a unit that are less than a unit apart are the same. -/
theorem eq_of_abs_sub_mul_lt {m m' : ℤ} {u : ℚ} (hu : 0 < u) (h : |m * u - m' * u| < u) : m = m' := by
  rw [← sub_mul, abs_mul, abs_of_pos hu] at h
  have h1 : |(m : ℚ) - m'| < 1 := by
    by_contra hge
    nlinarith
  have h2 : |m - m'| < 1 := by exact_mod_cast h1
  have := abs_lt.1 h2
  omega

/-- Rounding to 24 bits has one result (rule R14). -/
theorem roundedTo24_unique {mode : RoundingMode} {q v v' : ℚ} (h : roundedTo24 mode q v) (h' : roundedTo24 mode q v') :
    v = v' := by
  obtain ⟨e, m, hle, hlt, hv, hmode⟩ := h
  obtain ⟨e', m', hle', hlt', hv', hmode'⟩ := h'
  obtain rfl := binade_unique hle hlt hle' hlt'
  have hu : (0 : ℚ) < 2 ^ (e - 23) := zpow_pos (by norm_num) _
  have hhalf : (2 : ℚ) ^ (e - 24) = 2 ^ (e - 23) / 2 := by
    rw [show e - 23 = e - 24 + 1 by ring, zpow_add_one₀ (by norm_num)]
    ring
  have hm (hclose : |v - v'| < 2 ^ (e - 23)) : v = v' := by
    rw [hv, hv'] at hclose ⊢
    rw [eq_of_abs_sub_mul_lt hu hclose]
  cases mode with
  | rn =>
    obtain ⟨hnear, htie⟩ := hmode
    obtain ⟨hnear', htie'⟩ := hmode'
    rw [hhalf] at hnear htie hnear' htie'
    have htriangle : |v - v'| ≤ |v - q| + |v' - q| := abs_sub_comm q v' ▸ abs_sub_le v q v'
    by_contra hne
    have hge := not_lt.1 (mt hm hne)
    have heven := htie (by linarith)
    have heven' := htie' (by linarith)
    have hdouble (n : ℤ) (hn : n % 2 = 0) : (n : ℚ) * 2 ^ (e - 23) = (n / 2 : ℤ) * (2 * 2 ^ (e - 23)) := by
      have hcast : (n : ℚ) = (n / 2 : ℤ) * 2 := by exact_mod_cast (by omega : n = n / 2 * 2)
      rw [hcast, mul_assoc]
    have hclose : |v - v'| < 2 * 2 ^ (e - 23) := by linarith
    rw [hv, hv', hdouble m heven, hdouble m' heven'] at hclose hne
    exact hne (by rw [eq_of_abs_sub_mul_lt (by linarith) hclose])
  | rz =>
    obtain ⟨hsign, hle, hlt⟩ := hmode
    obtain ⟨hsign', hle', hlt'⟩ := hmode'
    refine hm ?_
    rcases lt_trichotomy q 0 with hq | hq | hq
    · have hv0 : v ≤ 0 := by nlinarith
      have hv0' : v' ≤ 0 := by nlinarith
      rw [abs_of_nonpos hv0] at hle hlt
      rw [abs_of_nonpos hv0'] at hle' hlt'
      exact abs_lt.2 ⟨by linarith, by linarith⟩
    · rw [hq, abs_zero] at hle hle'
      rw [abs_nonpos_iff.1 hle, abs_nonpos_iff.1 hle', sub_self, abs_zero]
      exact hu
    · have hv0 : 0 ≤ v := by nlinarith
      have hv0' : 0 ≤ v' := by nlinarith
      rw [abs_of_nonneg hv0] at hle hlt
      rw [abs_of_nonneg hv0'] at hle' hlt'
      exact abs_lt.2 ⟨by linarith, by linarith⟩
  | rp =>
    obtain ⟨h1, h2⟩ := hmode
    obtain ⟨h1', h2'⟩ := hmode'
    exact hm (abs_lt.2 ⟨by linarith, by linarith⟩)
  | rm =>
    obtain ⟨h1, h2⟩ := hmode
    obtain ⟨h1', h2'⟩ := hmode'
    exact hm (abs_lt.2 ⟨by linarith, by linarith⟩)

end Sys2Proof.Machine

/-! Spec 40_fp_common.md rules R108 to R116, R119: the parts of a packed element, the product, and sums that need no
rounding. -/

namespace Sys2Proof.Machine

/-! ### The parts of a packed element (rule R114) -/

/-- Sign, exponent and fraction of an element are determined by its number (rule R12). -/
theorem parts_of_toNat_eq {x : Word} {s : Bool} {e f : Nat} (he : e < 2 ^ 8) (hf : f < 2 ^ 23)
    (h : x.toNat = s.toNat * 2 ^ 31 + e * 2 ^ 23 + f) : signOf x = s ∧ expOf x = e ∧ fracOf x = f := by
  have hx := toNat_element x
  have hxe := expOf_lt x
  have hxf := fracOf_lt x
  have hs := s.toNat_le
  have hxs := (signOf x).toNat_le
  have hsign : (signOf x).toNat = s.toNat := by omega
  refine ⟨?_, by omega, by omega⟩
  cases h1 : signOf x <;> cases s <;> simp [h1] at hsign ⊢

/-- An element is its sign, exponent and fraction (rule R12). -/
theorem word_ext {x y : Word} (hs : signOf x = signOf y) (he : expOf x = expOf y) (hf : fracOf x = fracOf y) : x = y := by
  apply BitVec.eq_of_toNat_eq
  rw [toNat_element, toNat_element y, hs, he, hf]

theorem toNat_biasedExponent {e : Int} (hlo : -126 ≤ e) (hhi : e ≤ 127) :
    ((BitVec.ofInt 8 (e + 127)).toNat : ℤ) = e + 127 := by
  rw [BitVec.toNat_ofInt]
  omega

section PackElement

variable {s : Bool} {e : Int} {sig : Nat}

theorem parts_packElement (hlo : -126 ≤ e) (hhi : e ≤ 127) (hsig : sig < 2 ^ 24) :
    signOf (packElement s e sig) = s ∧ (expOf (packElement s e sig) : ℤ) = e + 127 ∧
      fracOf (packElement s e sig) = sig - 2 ^ 23 := by
  obtain ⟨hsign, hexp, hfrac⟩ := parts_of_toNat_eq (BitVec.isLt _) (Nat.mod_lt _ (by norm_num)) (toNat_packElement s e sig)
  refine ⟨hsign, ?_, ?_⟩
  · rw [hexp, toNat_biasedExponent hlo hhi]
  · rw [hfrac, Nat.mod_eq_of_lt (by omega)]

theorem elemVal_packElement (hlo : -126 ≤ e) (hhi : e ≤ 127) (hge : 2 ^ 23 ≤ sig) (hlt : sig < 2 ^ 24) :
    elemVal (packElement s e sig) = signFactor s * (sig * 2 ^ (e - 23)) := by
  obtain ⟨hsign, hexp, hfrac⟩ := parts_packElement (s := s) hlo hhi hlt
  have hnorm : expOf (packElement s e sig) ≠ 0 := by omega
  have hpow : (2 : ℚ) ^ e = 2 ^ 23 * 2 ^ (e - 23) := by
    rw [← zpow_natCast, ← zpow_add₀ (by norm_num)]
    congr 1
    push_cast
    ring
  rw [elemVal, if_neg hnorm, hsign, hexp, hfrac, add_sub_cancel_right, hpow, Nat.cast_sub hge, signFactor]
  push_cast
  ring

end PackElement

/-- A normalized element is packed from its own parts (rules R12, R114). -/
theorem packElement_parts {x : Word} (hlo : 1 ≤ expOf x) (hhi : expOf x ≤ 254) :
    packElement (signOf x) ((expOf x : ℤ) - 127) (significand x) = x := by
  have hf := fracOf_lt x
  obtain ⟨hsign, hexp, hfrac⟩ := parts_packElement (s := signOf x) (e := (expOf x : ℤ) - 127) (sig := significand x)
    (by omega) (by omega) (by unfold significand; omega)
  refine word_ext hsign (by omega) ?_
  rw [hfrac, significand, Nat.add_sub_cancel_left]

/-! ### Values that need no rounding (rule R114) -/

theorem natAbs_signedInt (negative : Bool) (n : Nat) : (signedInt negative n).natAbs = n := by
  cases negative <;> simp [signedInt]

theorem signedInt_lt_zero_iff {negative : Bool} {n : Nat} (hn : n ≠ 0) : signedInt negative n < 0 ↔ negative = true := by
  cases negative <;> simp [signedInt]
  omega

/-- A 24-bit significand at any exponent is its own truncation. -/
theorem roundParts_signedInt (mode : RoundingMode) (negative : Bool) {sig : Nat} (j : Nat) (hge : 2 ^ 23 ≤ sig)
    (hlt : sig < 2 ^ 24) :
    roundParts mode (signedInt negative (sig * 2 ^ j)) =
      { sign := negative, k := j + 23, t := sig, remainder := 0, r := sig, kr := j + 23 } := by
  have hpos : 0 < 2 ^ j := by positivity
  have hne : sig * 2 ^ j ≠ 0 := by positivity
  have hlog : (sig * 2 ^ j).log2 = j + 23 := by
    rw [Nat.log2_eq_iff hne, pow_add, show j + 23 + 1 = j + 24 by ring, pow_add]
    constructor <;> nlinarith
  have hmul : sig * 2 ^ j * 2 ^ 23 = sig * 2 ^ (j + 23) := by ring
  have hsign : decide (signedInt negative (sig * 2 ^ j) < 0) = negative := by
    rw [Bool.eq_iff_iff, decide_eq_true_eq, signedInt_lt_zero_iff hne]
  have hup : roundsUp mode negative sig 0 (2 ^ (j + 23)) = false := by
    cases mode <;> simp [roundsUp, (Nat.two_pow_pos (j + 23)).ne]
  have hcarry : (sig == 2 ^ 24) = false := beq_eq_false_iff_ne.2 hlt.ne
  simp only [roundParts, natAbs_signedInt, hlog, hmul, hsign, Nat.mul_mod_left, Nat.mul_div_cancel _ (Nat.two_pow_pos _), hup,
    hcarry, Bool.false_eq_true, if_false]

/-- The value of a normalized element needs no rounding: the result is the element (rule R114). -/
theorem nonzeroResult_fixedVal (cfg : Config) (mode : RoundingMode) (inv productInexact : Bool) (free : Word) {x : Word}
    (hlo : 1 ≤ expOf x) (hhi : expOf x ≤ 254) :
    nonzeroResult cfg mode inv productInexact (fixedVal x) free =
      { inv := inv, ovf := false, unf := false, inx := productInexact, g := false, x := false
        rounded := x, truncated := x } := by
  have hf := fracOf_lt x
  have hparts := roundParts_signedInt mode (signOf x) (expOf x + 150) (sig := significand x)
    (by unfold significand; omega) (by unfold significand; omega)
  have he : ((expOf x + 150 + 23 : ℕ) : ℤ) - 300 = (expOf x : ℤ) - 127 := by push_cast; ring
  have hunf : ¬ (expOf x : ℤ) - 127 < -126 := by omega
  have hovf : ¬ 127 < (expOf x : ℤ) - 127 := by omega
  simp only [nonzeroResult, fixedVal, hparts, underflows, overflows, Rounding.e, Rounding.er, he, hunf, hovf, decide_false,
    if_false, packElement_parts hlo hhi]
  cases cfg.underflowDetect <;> cases cfg.overflowDetect <;> simp [Rounding.inexact, Rounding.guard, Rounding.sticky]

theorem signedInt_not (negative : Bool) (n : Nat) : signedInt (!negative) n = -signedInt negative n := by
  cases negative <;> simp [signedInt]

theorem fixedVal_flipSign (x : Word) : fixedVal (flipSign x) = -fixedVal x := by
  simp only [fixedVal, significand, signOf_flipSign, expOf_flipSign, fracOf_flipSign, signedInt_not]

/-- The addend is the value of rD's element with the sign the subtraction gives it (rules R112, R113). -/
theorem addend_of_normalized (op : Op) {d : Word} (h : expOf d ≠ 0) :
    addend op d = fixedVal (if subtracts op then flipSign d else d) := by
  cases hs : subtracts op <;> simp [addend, h, hs, fixedVal_flipSign]

theorem zeroMultiplicand_iff (a b : Word) : zeroMultiplicand a b = true ↔ expOf a = 0 ∨ expOf b = 0 := by
  simp [zeroMultiplicand]

/-- The product of a zero or denormalized multiplicand (rule R108). -/
theorem product_of_zero {a b : Word} (h : expOf a = 0 ∨ expOf b = 0) (cfg : Config) (mode : RoundingMode) :
    product cfg mode a b = { value := 0, inexact := false } := by
  rw [product, if_pos ((zeroMultiplicand_iff a b).2 h)]

theorem plainProduct_of_zero {a b : Word} (h : expOf a = 0 ∨ expOf b = 0) : plainProduct a b := by
  unfold plainProduct
  tauto

/-- A zero product leaves the addend, which needs no rounding (rules R108, R128). -/
theorem elem_of_zeroProduct {a b d : Word} (hab : expOf a = 0 ∨ expOf b = 0) (hlo : 1 ≤ expOf d) (hhi : expOf d ≤ 254)
    (cfg : Config) (op : Op) (isVector : Bool) (mode : RoundingMode) (free : Word) :
    elem cfg op isVector mode a b d free = negateIf (negates op)
      { inv := invalidInput cfg isVector a b d, ovf := false, unf := false, inx := false, g := false, x := false
        rounded := if subtracts op then flipSign d else d, truncated := if subtracts op then flipSign d else d } := by
  have hexp : expOf (if subtracts op then flipSign d else d) = expOf d := by
    split_ifs <;> simp
  have hne : fixedVal (if subtracts op then flipSign d else d) ≠ 0 := by
    rw [← Int.natAbs_ne_zero, fixedVal, natAbs_signedInt, significand]
    positivity
  rw [elem_sum cfg op isVector mode a b d free (plainProduct_of_zero hab) (by omega), product_of_zero hab, zero_add,
    addend_of_normalized op (by omega), if_neg hne,
    nonzeroResult_fixedVal cfg mode _ _ free (by omega) (by omega)]

/-- Settles O47: the sum is the addend, and each operation gives it its sign. -/
theorem zeroProductReturnsTheAddend : Obligations.ZeroProductReturnsTheAddend := by
  intro cfg op isVector mode a b d free hab hlo hhi
  rw [elem_of_zeroProduct hab hlo hhi]
  cases op <;> simp [negateIf, negates, subtracts]

/-- Settles O57: a computation that ends early sets no flag, and otherwise a multiplicand is zero, so that the sum is the
addend. -/
theorem scalarInvalidElementIsExact : Obligations.ScalarInvalidElementIsExact := by
  intro cfg op mode a b d free hcfg r hinv
  simp only [r, elem_inv, invalidInput, hcfg, Bool.or_self, Bool.false_and, Bool.or_false, Bool.or_eq_true, isBad_iff] at hinv
  rcases elem_branches a b d with ⟨ha, hb, h⟩ | ⟨h, hd⟩ | ⟨h, hd⟩
  · simp [r, elem_specialMultiplicand cfg op false mode a b d free ha hb h, endedResult]
  · simp [r, elem_specialAddend cfg op false mode a b d free h hd, endedResult]
  · have hab : expOf a = 0 ∨ expOf b = 0 := by
      unfold plainProduct at h
      tauto
    by_cases hd0 : expOf d = 0
    · simp [r, elem_sum cfg op false mode a b d free h hd, product_of_zero hab, addend, hd0, zeroResult]
    · have hlt := expOf_lt d
      simp [r, elem_of_zeroProduct hab (show 1 ≤ expOf d by omega) (show expOf d ≤ 254 by omega)]

/-! ### The intermediate product (rule R110) -/

theorem natAbs_fixedProduct (a b : Word) :
    (fixedProduct a b).natAbs = significand a * significand b * 2 ^ (expOf a + expOf b) :=
  natAbs_signedInt _ _

theorem two_pow_le_natAbs_fixedProduct (a b : Word) : 2 ^ 46 ≤ (fixedProduct a b).natAbs := by
  have hpos : 0 < 2 ^ (expOf a + expOf b) := by positivity
  have hsig (x : Word) : 2 ^ 23 ≤ significand x := Nat.le_add_right _ _
  calc 2 ^ 46 = 2 ^ 23 * 2 ^ 23 * 1 := by norm_num
    _ ≤ significand a * significand b * 2 ^ (expOf a + expOf b) := Nat.mul_le_mul (Nat.mul_le_mul (hsig a) (hsig b)) hpos
    _ = (fixedProduct a b).natAbs := (natAbs_fixedProduct a b).symm

theorem fixedProduct_ne_zero (a b : Word) : fixedProduct a b ≠ 0 := by
  have := two_pow_le_natAbs_fixedProduct a b
  omega

/-- The rounding of a product has no bit below the integers' unit. -/
theorem le_k_roundParts_fixedProduct (mode : RoundingMode) (a b : Word) : 23 ≤ (roundParts mode (fixedProduct a b)).k := by
  have hlt := (roundParts_decomposes mode (fixedProduct_ne_zero a b)).lt_two_pow
  have hpow := (two_pow_le_natAbs_fixedProduct a b).trans_lt hlt
  have := (Nat.pow_lt_pow_iff_right (by norm_num)).1 hpow
  omega

/-- Rounding changes a value exactly if it is inexact (rule R114). -/
theorem Rounding.Decomposes.roundedRat_ne_iff {p : Rounding} {mode : RoundingMode} {T : Int} (h : p.Decomposes mode T) :
    p.roundedRat mode ≠ (T : ℚ) / 2 ^ 300 ↔ p.inexact = true := by
  have hnonneg := p.rest_nonneg
  have hlt := h.rest_lt_one
  rw [p.inexact_iff, ne_eq, not_iff_not, p.roundedRat_eq mode _ h.eq_signFactor_mul, add_eq_left,
    mul_eq_zero_iff_right p.ulp_pos.ne', ← p.rest_eq_zero_iff]
  constructor
  · intro herror
    have habs : |((p.up mode).toNat : ℚ) - p.rest| = 0 := by
      rw [← one_mul |_|, ← abs_signFactor p.sign, ← abs_mul]
      exact abs_eq_zero.2 herror
    have hrest : p.rest = (p.up mode).toNat := (sub_eq_zero.1 (abs_eq_zero.1 habs)).symm
    cases hup : p.up mode
    · simpa [hup] using hrest
    · rw [hrest, hup] at hlt
      norm_num at hlt
  · intro hrest
    have hup := Rounding.up_eq_false_of_remainder_eq_zero (p.rest_eq_zero_iff.1 hrest) mode
    simp [Rounding.roundingError, hup, hrest]

/-- Settles O48: under `single` the product is the exact one rounded by rule R114, which rule R14 determines. -/
theorem intermediateProductIsExactOrRounded : Obligations.IntermediateProductIsExactOrRounded := by
  intro cfg mode a b hplain p
  by_cases hzero : expOf a = 0 ∨ expOf b = 0
  · have hp : p = { value := 0, inexact := false } := product_of_zero hzero cfg mode
    have hval : elemVal a * elemVal b = 0 := by
      rcases hzero with h | h <;> simp [elemVal, h]
    refine ⟨fun P => ?_, by simp [hp, hval]⟩
    cases hr : cfg.productRounding <;> simp [isProduct, hr, hval, hp]
  · have hmultiplicand : zeroMultiplicand a b = false := by
      rwa [← Bool.not_eq_true, zeroMultiplicand_iff]
    have hval := elemVal_mul_eq_fixedProduct a b (not_or.1 hzero).1 (not_or.1 hzero).2
    cases hr : cfg.productRounding with
    | exact =>
      have hp : p = { value := fixedProduct a b, inexact := false } := by simp [p, product, hmultiplicand, hr]
      rw [hp]
      exact ⟨fun P => by simp only [isProduct, hr, hval], by simp [hval]⟩
    | single =>
      have h := roundParts_decomposes mode (fixedProduct_ne_zero a b)
      have hrounded := h.roundedVal_eq (le_k_roundParts_fixedProduct mode a b)
      have hp : p = { value := (roundParts mode (fixedProduct a b)).roundedVal
                      inexact := (roundParts mode (fixedProduct a b)).inexact } := by
        simp [p, product, hmultiplicand, hr]
      have hne : (fixedProduct a b : ℚ) / 2 ^ 300 ≠ 0 :=
        div_ne_zero (Int.cast_ne_zero.2 (fixedProduct_ne_zero a b)) (pow_ne_zero _ two_ne_zero)
      rw [hp, hval]
      refine ⟨fun P => ?_, by rw [hrounded, h.roundedRat_ne_iff]⟩
      simp only [isProduct, hr, hval, if_neg hne]
      rw [hrounded]
      exact ⟨fun hP => roundedTo24_unique hP h.roundedTo24_roundedRat, fun hP => hP ▸ h.roundedTo24_roundedRat⟩

/-- Rounding keeps a value of which nothing is left out (rule R114). -/
theorem roundedVal_of_not_inexact {mode : RoundingMode} {T : Int} (hT : T ≠ 0) (h : (roundParts mode T).inexact = false) :
    (roundParts mode T).roundedVal = T := by
  have hd := roundParts_decomposes mode hT
  have hrem : (roundParts mode T).remainder = 0 := by
    by_contra hne
    rw [(roundParts mode T).inexact_iff.2 hne] at h
    cases h
  have hmul : (roundParts mode T).r * 2 ^ (roundParts mode T).kr = T.natAbs * 2 ^ 23 := by
    rw [hd.rounded_eq, Rounding.up_eq_false_of_remainder_eq_zero hrem, Bool.toNat_false, add_zero, ← hd.split, hrem, add_zero]
  rw [Rounding.roundedVal, hmul, Nat.mul_div_cancel _ (by norm_num), hd.sign_eq]
  by_cases hneg : T < 0
  · simp only [signedInt, hneg, decide_true, if_true]
    omega
  · simp only [signedInt, hneg, decide_false, Bool.false_eq_true, if_false]
    omega

/-- Settles O59: the rounded product is the exact one, and nothing else of the element function reads the parameter. -/
theorem productRoundingAgreesOnShortProducts : Obligations.ProductRoundingAgreesOnShortProducts := by
  intro cfg op isVector mode a b d free h
  have hproduct : product { cfg with productRounding := .single } mode a b =
      product { cfg with productRounding := .exact } mode a b := by
    simp only [product, roundedVal_of_not_inexact (fixedProduct_ne_zero a b) h, h]
  simp only [elem, hproduct]
  rfl

end Sys2Proof.Machine

/-! Spec 40_fp_common.md rules R113 to R119: the sum of the element function, where it underflows and overflows, and its
rounded and truncated elements. -/

namespace Sys2Proof.Machine

/-! ### When the rounded exponent reaches a given one (rules R115, R116) -/

namespace Rounding

/-- The exponent of the truncated significand reaches `E` exactly if the magnitude is at least `2^E`. -/
theorem Decomposes.le_e_iff {p : Rounding} {mode : RoundingMode} {T : Int} (h : p.Decomposes mode T) (E : ℤ) :
    E ≤ p.e ↔ (2 : ℚ) ^ E ≤ |(T : ℚ) / 2 ^ 300| := by
  have hone : (1 : ℚ) < 2 := by norm_num
  constructor
  · exact fun hE => ((zpow_le_zpow_iff_right₀ hone).2 hE).trans h.two_zpow_e_le
  · intro hE
    exact Int.lt_add_one_iff.1 ((zpow_lt_zpow_iff_right₀ hone).1 (hE.trans_lt h.lt_two_zpow_e))

theorem Decomposes.er_eq {p : Rounding} {mode : RoundingMode} {T : Int} (h : p.Decomposes mode T) :
    (p.er = p.e ∧ p.t + (p.up mode).toNat < 2 ^ 24) ∨ (p.er = p.e + 1 ∧ p.t + (p.up mode).toNat = 2 ^ 24) := by
  rcases h.carry with ⟨hkr, hr, hlt⟩ | ⟨hkr, -, hcarry⟩
  · exact .inl ⟨by simp only [Rounding.er, Rounding.e, hkr], by omega⟩
  · exact .inr ⟨by simp only [Rounding.er, Rounding.e, hkr]; push_cast; ring, hcarry⟩

variable {p : Rounding} {mode : RoundingMode} {T : Int}

theorem Decomposes.e_le_er (h : p.Decomposes mode T) : p.e ≤ p.er := by
  rcases h.er_eq with ⟨her, -⟩ | ⟨her, -⟩ <;> omega

theorem Decomposes.er_le (h : p.Decomposes mode T) : p.er ≤ p.e + 1 := by
  rcases h.er_eq with ⟨her, -⟩ | ⟨her, -⟩ <;> omega

/-- The rounded exponent reaches `E` where the value does, or from the exponent below by a carry. -/
theorem Decomposes.le_er_iff (h : p.Decomposes mode T) (E : ℤ) :
    E ≤ p.er ↔ (2 : ℚ) ^ E ≤ |(T : ℚ) / 2 ^ 300| ∨ (p.e + 1 = E ∧ p.t + 1 = 2 ^ 24 ∧ p.up mode = true) := by
  have ht := h.t_lt
  rw [← h.le_e_iff]
  rcases h.er_eq with ⟨her, hlt⟩ | ⟨her, hcarry⟩
  · rw [her]
    refine ⟨.inl, fun hE => hE.resolve_right fun ⟨_, hmax, hup⟩ => ?_⟩
    rw [hup, Bool.toNat_true] at hlt
    omega
  · have hup : p.up mode = true := by
      by_contra hnot
      rw [Bool.not_eq_true] at hnot
      rw [hnot, Bool.toNat_false] at hcarry
      omega
    rw [hup, Bool.toNat_true] at hcarry
    simp only [her, hup, hcarry, and_true]
    omega

/-- The largest significand below `2^E`. -/
theorem Decomposes.largest_iff (h : p.Decomposes mode T) (E : ℤ) :
    p.e + 1 = E ∧ p.t + 1 = 2 ^ 24 ↔
      (2 : ℚ) ^ E - 2 ^ (E - 24) ≤ |(T : ℚ) / 2 ^ 300| ∧ |(T : ℚ) / 2 ^ 300| < (2 : ℚ) ^ E := by
  have hulp := p.ulp_pos
  have hnonneg := p.rest_nonneg
  have hlt := h.rest_lt_one
  constructor
  · rintro ⟨rfl, ht⟩
    have ht' : (p.t : ℚ) = 2 ^ 24 - 1 := by rw [eq_sub_iff_add_eq]; exact_mod_cast ht
    refine ⟨?_, h.lt_two_zpow_e⟩
    rw [h.abs_eq, two_zpow_e_add_one, show p.e + 1 - 24 = p.e - 23 by ring, ← ulp, ht']
    nlinarith
  · rintro ⟨hge, hbelow⟩
    have hone : (1 : ℚ) < 2 := by norm_num
    have hE : p.e < E := not_le.1 fun hE => absurd ((h.le_e_iff E).1 hE) (not_le.2 hbelow)
    have hhalf : (2 : ℚ) ^ (E - 1) ≤ 2 ^ E - 2 ^ (E - 24) := by
      have h24 : (2 : ℚ) ^ (E - 24) ≤ 2 ^ (E - 1) := (zpow_le_zpow_iff_right₀ hone).2 (by omega)
      have h1 : (2 : ℚ) ^ E = 2 * 2 ^ (E - 1) := by
        rw [← zpow_one_add₀ (by norm_num)]
        congr 1
        ring
      linarith
    obtain rfl : p.e + 1 = E := by
      have := (zpow_lt_zpow_iff_right₀ hone).1 ((hhalf.trans hge).trans_lt h.lt_two_zpow_e)
      omega
    refine ⟨rfl, ?_⟩
    rw [h.abs_eq, two_zpow_e_add_one, show p.e + 1 - 24 = p.e - 23 by ring, ← ulp, ← sub_one_mul,
      mul_le_mul_iff_left₀ hulp] at hge
    have ht : (2 : ℚ) ^ 24 < p.t + 2 := by linarith
    have ht' : 2 ^ 24 < p.t + 2 := by exact_mod_cast ht
    have := h.t_lt
    omega

/-- The value of a largest significand: what is left out brings it nearer to `2^E`. -/
theorem Decomposes.abs_eq_of_largest (h : p.Decomposes mode T) (ht : p.t + 1 = 2 ^ 24) :
    |(T : ℚ) / 2 ^ 300| = (2 : ℚ) ^ (p.e + 1) - (1 - p.rest) * p.ulp := by
  have ht' : (p.t : ℚ) = 2 ^ 24 - 1 := by rw [eq_sub_iff_add_eq]; exact_mod_cast ht
  rw [h.abs_eq, two_zpow_e_add_one, ht']
  ring

/-- Toward zero, the rounded exponent is that of the value. -/
theorem Decomposes.le_er_iff_of_not_up (h : p.Decomposes mode T) (hup : p.up mode = false) (E : ℤ) :
    E ≤ p.er ↔ (2 : ℚ) ^ E ≤ |(T : ℚ) / 2 ^ 300| := by
  rw [h.le_er_iff, hup]
  simp

/-- Below `2^E` the rounded exponent reaches `E` exactly if a largest significand is rounded up. -/
theorem Decomposes.le_er_iff_of_lt (h : p.Decomposes mode T) {E : ℤ} (hlt : |(T : ℚ) / 2 ^ 300| < (2 : ℚ) ^ E) :
    E ≤ p.er ↔ (2 : ℚ) ^ E - 2 ^ (E - 24) ≤ |(T : ℚ) / 2 ^ 300| ∧ p.up mode = true := by
  rw [h.le_er_iff, or_iff_right (not_le.2 hlt), ← and_assoc, h.largest_iff, and_iff_left hlt]

/-- A largest significand below `2^E` in units of the last place there. -/
theorem Decomposes.gap_of_largest (h : p.Decomposes mode T) {E : ℤ} (hlt : |(T : ℚ) / 2 ^ 300| < (2 : ℚ) ^ E)
    (hge : (2 : ℚ) ^ E - 2 ^ (E - 24) ≤ |(T : ℚ) / 2 ^ 300|) :
    p.t + 1 = 2 ^ 24 ∧ |(T : ℚ) / 2 ^ 300| = (2 : ℚ) ^ E - (1 - p.rest) * 2 ^ (E - 24) := by
  obtain ⟨rfl, ht⟩ := (h.largest_iff E).2 ⟨hge, hlt⟩
  refine ⟨ht, ?_⟩
  rw [h.abs_eq_of_largest ht, show p.e + 1 - 24 = p.e - 23 by ring, ulp]

/-- Away from zero, the rounded exponent reaches `E` from anything above the largest value below `2^E`. -/
theorem Decomposes.le_er_iff_of_away (h : p.Decomposes mode T) (hup : p.up mode = decide (0 < p.remainder)) (E : ℤ) :
    E ≤ p.er ↔ (2 : ℚ) ^ E - 2 ^ (E - 24) < |(T : ℚ) / 2 ^ 300| := by
  have hunit : (0 : ℚ) < 2 ^ (E - 24) := zpow_pos (by norm_num) _
  have hrest : p.up mode = true ↔ 0 < p.rest := by
    rw [hup, decide_eq_true_eq, Nat.pos_iff_ne_zero, ne_eq, ← p.rest_eq_zero_iff, p.rest_nonneg.lt_iff_ne', ne_eq]
  rcases le_or_gt ((2 : ℚ) ^ E) |(T : ℚ) / 2 ^ 300| with hge | hlt
  · exact iff_of_true ((h.le_er_iff E).2 (.inl hge)) (by linarith)
  · rw [h.le_er_iff_of_lt hlt, hrest]
    constructor
    · rintro ⟨hge, hpos⟩
      rw [(h.gap_of_largest hlt hge).2]
      nlinarith
    · intro hgt
      obtain ⟨-, hgap⟩ := h.gap_of_largest hlt hgt.le
      refine ⟨hgt.le, ?_⟩
      rw [hgap] at hgt
      nlinarith

/-- To nearest, the rounded exponent reaches `E` from the middle between the largest value below and `2^E`. -/
theorem Decomposes.le_er_iff_of_nearest (h : p.Decomposes .rn T) (E : ℤ) :
    E ≤ p.er ↔ (2 : ℚ) ^ E - 2 ^ (E - 25) ≤ |(T : ℚ) / 2 ^ 300| := by
  have hunit : (0 : ℚ) < 2 ^ (E - 25) := zpow_pos (by norm_num) _
  have htwo : (2 : ℚ) ^ (E - 24) = 2 * 2 ^ (E - 25) := by
    rw [← zpow_one_add₀ (by norm_num)]
    congr 1
    ring
  have hup (ht : p.t + 1 = 2 ^ 24) : p.up .rn = true ↔ 1 / 2 ≤ p.rest := by
    have hodd : (p.t % 2 == 1) = true := beq_iff_eq.2 (by omega)
    rw [p.up_eq_roundsUpFrom, roundsUpFrom, hodd, Bool.or_true, Bool.and_true, p.guard_iff_half_le_rest]
  rcases le_or_gt ((2 : ℚ) ^ E) |(T : ℚ) / 2 ^ 300| with hge | hlt
  · exact iff_of_true ((h.le_er_iff E).2 (.inl hge)) (by linarith)
  · rw [h.le_er_iff_of_lt hlt]
    constructor
    · rintro ⟨hge, hnear⟩
      obtain ⟨ht, hgap⟩ := h.gap_of_largest hlt hge
      rw [hup ht] at hnear
      rw [hgap, htwo]
      nlinarith
    · intro hge
      have hge' : (2 : ℚ) ^ E - 2 ^ (E - 24) ≤ |(T : ℚ) / 2 ^ 300| := by linarith
      obtain ⟨ht, hgap⟩ := h.gap_of_largest hlt hge'
      refine ⟨hge', (hup ht).2 ?_⟩
      rw [hgap, htwo] at hge
      nlinarith

/-- The sign of a decomposed value. -/
theorem Decomposes.abs_eq_of_sign (h : p.Decomposes mode T) :
    |(T : ℚ) / 2 ^ 300| = signFactor p.sign * ((T : ℚ) / 2 ^ 300) := by
  rw [h.abs_eq, h.eq_signFactor_mul, ← mul_assoc, signFactor_mul_self, one_mul]

theorem Decomposes.abs_pos (h : p.Decomposes mode T) : 0 < |(T : ℚ) / 2 ^ 300| :=
  (zpow_pos (by norm_num) _).trans_le h.two_zpow_e_le

/-- Toward plus infinity, by the sign of the value. -/
theorem Decomposes.le_er_iff_rp (h : p.Decomposes .rp T) (E : ℤ) :
    E ≤ p.er ↔ (2 : ℚ) ^ E - 2 ^ (E - 24) < (T : ℚ) / 2 ^ 300 ∨ (T : ℚ) / 2 ^ 300 ≤ -2 ^ E := by
  have hunit : (2 : ℚ) ^ (E - 24) < 2 ^ E := (zpow_lt_zpow_iff_right₀ (by norm_num)).2 (by omega)
  have hpow : (0 : ℚ) < 2 ^ (E - 24) := zpow_pos (by norm_num) _
  have hpos := h.abs_pos
  have habs := h.abs_eq_of_sign
  cases hs : p.sign with
  | true =>
    rw [hs, signFactor, if_pos rfl, neg_one_mul] at habs
    rw [h.le_er_iff_of_not_up (by simp [up, roundsUp, hs]), habs]
    generalize (T : ℚ) / 2 ^ 300 = q at habs hpos ⊢
    rw [or_iff_right (by linarith)]
    exact le_neg
  | false =>
    rw [hs, signFactor, if_neg (by decide), one_mul] at habs
    rw [h.le_er_iff_of_away (by simp [up, roundsUp, hs]), habs]
    generalize (T : ℚ) / 2 ^ 300 = q at habs hpos ⊢
    rw [or_iff_left (by linarith)]

/-- Toward minus infinity, by the sign of the value. -/
theorem Decomposes.le_er_iff_rm (h : p.Decomposes .rm T) (E : ℤ) :
    E ≤ p.er ↔ (T : ℚ) / 2 ^ 300 < -(2 ^ E - 2 ^ (E - 24)) ∨ (2 : ℚ) ^ E ≤ (T : ℚ) / 2 ^ 300 := by
  have hunit : (2 : ℚ) ^ (E - 24) < 2 ^ E := (zpow_lt_zpow_iff_right₀ (by norm_num)).2 (by omega)
  have hpow : (0 : ℚ) < 2 ^ (E - 24) := zpow_pos (by norm_num) _
  have hpos := h.abs_pos
  have habs := h.abs_eq_of_sign
  cases hs : p.sign with
  | true =>
    rw [hs, signFactor, if_pos rfl, neg_one_mul] at habs
    rw [h.le_er_iff_of_away (by simp [up, roundsUp, hs]), habs]
    generalize (T : ℚ) / 2 ^ 300 = q at habs hpos ⊢
    rw [or_iff_left (by linarith)]
    exact lt_neg
  | false =>
    rw [hs, signFactor, if_neg (by decide), one_mul] at habs
    rw [h.le_er_iff_of_not_up (by simp [up, roundsUp, hs]), habs]
    generalize (T : ℚ) / 2 ^ 300 = q at habs hpos ⊢
    rw [or_iff_right (by linarith)]

end Rounding

/-! ### The element function on a sum (rules R113 to R118) -/

/-- `T = P + D'` of rule R113 in the integers' unit. -/
def sumInt (cfg : Config) (op : Op) (mode : RoundingMode) (a b d : Word) : Int := (product cfg mode a b).value + addend op d

/-- The sum of the intermediate product and the addend, as the element function and as rule R113 has it. -/
theorem sumWith_eq_sumInt {cfg : Config} {mode : RoundingMode} {a b : Word} {P : ℚ} (hP : isProduct cfg mode a b P)
    (h : plainProduct a b) (op : Op) (d : Word) : sumWith op P d = (sumInt cfg op mode a b d : ℚ) / 2 ^ 300 :=
  sumWith_eq op P _ d (((intermediateProductIsExactOrRounded cfg mode a b h).1 P).1 hP)

/-- The product's own rounding is inexact exactly where the intermediate product is not the exact one. -/
theorem product_inexact_iff {cfg : Config} {mode : RoundingMode} {a b : Word} {P : ℚ} (hP : isProduct cfg mode a b P)
    (h : plainProduct a b) : (product cfg mode a b).inexact = true ↔ P ≠ elemVal a * elemVal b := by
  obtain ⟨hvalue, hinexact⟩ := intermediateProductIsExactOrRounded cfg mode a b h
  rw [hinexact, ← (hvalue P).1 hP]

theorem sumWith_eq_zero_iff {cfg : Config} {mode : RoundingMode} {a b : Word} {P : ℚ} (hP : isProduct cfg mode a b P)
    (h : plainProduct a b) (op : Op) (d : Word) : sumWith op P d = 0 ↔ sumInt cfg op mode a b d = 0 := by
  rw [sumWith_eq_sumInt hP h, div_eq_zero_iff, or_iff_left (pow_ne_zero _ two_ne_zero), Int.cast_eq_zero]

section Sum

variable {cfg : Config} {op : Op} {isVector : Bool} {mode : RoundingMode} {a b d free : Word}

theorem elem_of_sum_zero (h : plainProduct a b) (hd : expOf d ≠ 255) (hT : sumInt cfg op mode a b d = 0) :
    elem cfg op isVector mode a b d free = negateIf (negates op)
      (zeroResult mode (invalidInput cfg isVector a b d) (product cfg mode a b).inexact (productSign a b)
        (addendSign op d)) := by
  rw [elem_sum cfg op isVector mode a b d free h hd]
  exact congrArg _ (if_pos hT)

theorem elem_of_sum_nonzero (h : plainProduct a b) (hd : expOf d ≠ 255) (hT : sumInt cfg op mode a b d ≠ 0) :
    elem cfg op isVector mode a b d free = negateIf (negates op)
      (nonzeroResult cfg mode (invalidInput cfg isVector a b d) (product cfg mode a b).inexact
        (sumInt cfg op mode a b d) free) := by
  rw [elem_sum cfg op isVector mode a b d free h hd]
  exact congrArg _ (if_neg hT)

end Sum

theorem baseOf_zeroOf (op : Op) (negative : Bool) :
    baseOf op (zeroOf negative) = if (negative ^^ negates op) = true then 0x80000000#32 else 0x00000000#32 := by
  cases negative <;> cases h : negates op <;> simp [baseOf, zeroOf, flipSign, h]

theorem baseOf_saturated (op : Op) (negative : Bool) :
    baseOf op (saturated negative) = if (negative ^^ negates op) = true then 0xFF7FFFFF#32 else 0x7F7FFFFF#32 := by
  cases negative <;> cases h : negates op <;> simp [baseOf, saturated, pmax, nmax, flipSign, h]

/-- Settles O49: the branch of a zero sum. -/
theorem exactZeroSumSign : Obligations.ExactZeroSumSign := by
  intro cfg op isVector mode a b d free P hP h hd hsum r ps ds sign
  have hT := (sumWith_eq_zero_iff hP h op d).1 hsum
  have hsign : zeroSumSign mode (productSign a b) (addendSign op d) = sign := by
    simp only [zeroSumSign, sign, beq_iff_eq]
    rfl
  have hinexact := product_inexact_iff hP h
  have hr : r = _ := elem_of_sum_zero h hd hT
  rw [hr]
  refine ⟨?_, ?_, by simp [zeroResult], by simp [zeroResult], by simp [zeroResult], by simp [zeroResult],
    by simpa [zeroResult] using hinexact, fun hcfg => ?_⟩
  · rw [negateIf_rounded, zeroResult, hsign, baseOf_zeroOf]
  · rw [negateIf_rounded, negateIf_truncated]; rfl
  · rw [negateIf_inx]
    simp only [zeroResult, product, hcfg]
    split_ifs <;> rfl

end Sys2Proof.Machine

/-! Spec 40_fp_common.md rules R114 to R119: underflow, overflow and the finite result of the element function. -/

namespace Sys2Proof.Machine

/-- The branch of rule R116. -/
theorem nonzeroResult_of_underflows {cfg : Config} {mode : RoundingMode} {T : Int}
    (hunf : underflows cfg (roundParts mode T) = true) (inv productInexact : Bool) (free : Word) :
    nonzeroResult cfg mode inv productInexact T free =
      { inv := inv, ovf := false, unf := true, inx := false, g := false, x := false
        rounded := zeroOf (underflowSign mode), truncated := zeroOf (underflowSign mode) } := by
  simp only [nonzeroResult, hunf, if_true]

/-- The branch of rule R115. -/
theorem nonzeroResult_of_overflows {cfg : Config} {mode : RoundingMode} {T : Int}
    (hunf : underflows cfg (roundParts mode T) = false) (hovf : overflows cfg (roundParts mode T) = true)
    (inv productInexact : Bool) (free : Word) :
    nonzeroResult cfg mode inv productInexact T free =
      { inv := inv, ovf := true, unf := false, inx := false, g := false, x := false
        rounded := saturated (roundParts mode T).sign, truncated := saturated (roundParts mode T).sign } := by
  simp only [nonzeroResult, hunf, hovf, Bool.false_eq_true, if_false, if_true]

/-- Overflow and underflow exclude each other, at any detection points. -/
theorem Rounding.Decomposes.not_underflows_of_overflows {p : Rounding} {mode : RoundingMode} {T : Int}
    (h : p.Decomposes mode T) {cfg : Config} (hovf : overflows cfg p = true) : underflows cfg p = false := by
  have hle := h.e_le_er
  have hge := h.er_le
  cases ho : cfg.overflowDetect <;> cases hu : cfg.underflowDetect <;>
    simp only [overflows, underflows, ho, hu, decide_eq_true_eq, decide_eq_false_iff_not] at hovf ⊢ <;> omega

section Sum

variable {cfg : Config} {op : Op} {isVector : Bool} {mode : RoundingMode} {a b d free : Word}

theorem elem_unf_iff (h : plainProduct a b) (hd : expOf d ≠ 255) :
    (elem cfg op isVector mode a b d free).unf = true ↔
      sumInt cfg op mode a b d ≠ 0 ∧ underflows cfg (roundParts mode (sumInt cfg op mode a b d)) = true := by
  by_cases hT : sumInt cfg op mode a b d = 0
  · simp [elem_of_sum_zero h hd hT, zeroResult, hT]
  · rw [elem_of_sum_nonzero h hd hT, negateIf_unf, and_iff_right hT]
    simp only [nonzeroResult]
    split_ifs <;> simp [*]

theorem elem_ovf_iff (h : plainProduct a b) (hd : expOf d ≠ 255) :
    (elem cfg op isVector mode a b d free).ovf = true ↔
      sumInt cfg op mode a b d ≠ 0 ∧ overflows cfg (roundParts mode (sumInt cfg op mode a b d)) = true := by
  by_cases hT : sumInt cfg op mode a b d = 0
  · simp [elem_of_sum_zero h hd hT, zeroResult, hT]
  · have hexclusive := (roundParts_decomposes mode hT).not_underflows_of_overflows (cfg := cfg)
    rw [elem_of_sum_nonzero h hd hT, negateIf_ovf, and_iff_right hT]
    simp only [nonzeroResult]
    split_ifs with hunf hovf
    · simpa [hunf] using hexclusive
    · simp [hovf]
    · simp [hovf]

end Sum

namespace Rounding.Decomposes

variable {p : Rounding} {mode : RoundingMode} {T : Int}

/-- Underflow before rounding (decision D12). -/
theorem e_lt_iff (h : p.Decomposes mode T) (E : ℤ) : p.e < E ↔ |(T : ℚ) / 2 ^ 300| < (2 : ℚ) ^ E := by
  rw [← not_le, h.le_e_iff, not_le]

end Rounding.Decomposes

/-- Settles O50: the exponent of the sum, before or after rounding, against -126. -/
theorem underflowFlushesToModeSignedZero : Obligations.UnderflowFlushesToModeSignedZero := by
  intro cfg op isVector mode a b d free P hP h hd r T
  have hTq : T = _ := sumWith_eq_sumInt hP h op d
  refine ⟨?_, fun hunf => ?_⟩
  · rw [elem_unf_iff h hd, ne_eq, ne_eq, ← sumWith_eq_zero_iff hP h op d]
    refine and_congr_right fun hT => ?_
    have hD := roundParts_decomposes mode (mt (sumWith_eq_zero_iff hP h op d).2 hT)
    rw [hTq]
    cases hu : cfg.underflowDetect with
    | beforeRounding => simp only [underflows, hu, decide_eq_true_eq, hD.e_lt_iff]
    | afterRounding =>
      simp only [underflows, hu, decide_eq_true_eq]
      rw [← not_le]
      cases mode with
      | rn => rw [hD.le_er_iff_of_nearest, not_le]; rfl
      | rz => rw [hD.le_er_iff_of_not_up rfl, not_le]
      | rp => rw [hD.le_er_iff_rp, not_or, not_lt, not_le, and_comm]; rfl
      | rm => rw [hD.le_er_iff_rm, not_or, not_lt, not_le]; rfl
  · obtain ⟨hT, hunf⟩ := (elem_unf_iff h hd).1 hunf
    have hr : r = _ := elem_of_sum_nonzero h hd hT
    rw [hr, nonzeroResult_of_underflows hunf]
    refine ⟨?_, by rw [negateIf_rounded, negateIf_truncated], by simp, by simp, by simp, by simp⟩
    rw [negateIf_rounded, baseOf_zeroOf]
    rfl

theorem fixedUnits_neg_iff (T : Int) : (T : ℚ) / 2 ^ 300 < 0 ↔ T < 0 := by
  rw [div_lt_iff₀ (by positivity), zero_mul, Int.cast_lt_zero]

/-- Settles O51: the exponent of the sum, before or after rounding, against 127. -/
theorem overflowSaturatesBySignOfSum : Obligations.OverflowSaturatesBySignOfSum := by
  intro cfg op isVector mode a b d free P hP h hd r T
  have hTq : T = _ := sumWith_eq_sumInt hP h op d
  refine ⟨?_, fun hovf => ?_⟩
  · rw [elem_ovf_iff h hd]
    by_cases hT : sumInt cfg op mode a b d = 0
    · have hzero : T = 0 := (sumWith_eq_zero_iff hP h op d).2 hT
      rw [hzero]
      -- zero is below every bound
      cases cfg.overflowDetect <;> cases mode <;> simp [hT] <;> norm_num
    · have hD := roundParts_decomposes mode hT
      rw [and_iff_right hT, hTq]
      cases ho : cfg.overflowDetect with
      | beforeRounding =>
        simp only [overflows, ho, decide_eq_true_eq]
        exact hD.le_e_iff 128
      | afterRounding =>
        simp only [overflows, ho, decide_eq_true_eq]
        cases mode with
        | rn => exact hD.le_er_iff_of_nearest 128
        | rz => exact hD.le_er_iff_of_not_up rfl 128
        | rp => exact hD.le_er_iff_rp 128
        | rm => exact hD.le_er_iff_rm 128
  · obtain ⟨hT, hovf⟩ := (elem_ovf_iff h hd).1 hovf
    have hD := roundParts_decomposes mode hT
    have hr : r = _ := elem_of_sum_nonzero h hd hT
    have hsign : decide (T < 0) = (roundParts mode (sumInt cfg op mode a b d)).sign := by
      rw [hD.sign_eq, hTq, decide_eq_decide, fixedUnits_neg_iff]
    rw [hr, nonzeroResult_of_overflows (hD.not_underflows_of_overflows hovf) hovf, hsign]
    refine ⟨?_, by rw [negateIf_rounded, negateIf_truncated], by simp, by simp, by simp, by simp⟩
    rw [negateIf_rounded, baseOf_saturated]

end Sys2Proof.Machine

/-! Spec 40_fp_common.md rules R114, R117, R119: the finite result at the default detection points, as bits and as a rational
value. -/

namespace Sys2Proof.Machine

/-- A sum that neither underflows nor overflows at the default detection points (decisions D11, D12). -/
theorem nonzeroResult_of_finite {cfg : Config} {mode : RoundingMode} {T : Int} (hover : cfg.overflowDetect = .afterRounding)
    (hunder : cfg.underflowDetect = .beforeRounding) (hunf : underflows cfg (roundParts mode T) = false)
    (hovf : overflows cfg (roundParts mode T) = false) (inv productInexact : Bool) (free : Word) :
    -126 ≤ (roundParts mode T).e ∧ (roundParts mode T).er ≤ 127 ∧
      nonzeroResult cfg mode inv productInexact T free =
        { inv := inv, ovf := false, unf := false, inx := (roundParts mode T).inexact || productInexact
          g := (roundParts mode T).guard, x := (roundParts mode T).sticky
          rounded := packElement (roundParts mode T).sign (roundParts mode T).er (roundParts mode T).r
          truncated := packElement (roundParts mode T).sign (roundParts mode T).e (roundParts mode T).t } := by
  have he : ¬ (roundParts mode T).e < -126 := by simpa [underflows, hunder] using hunf
  have her : ¬ 127 < (roundParts mode T).er := by simpa [overflows, hover] using hovf
  refine ⟨not_lt.1 he, not_lt.1 her, ?_⟩
  simp only [nonzeroResult, hunf, hovf, he, her, Bool.false_eq_true, if_false]

/-- A zero or a normalized number (rules R12, R119 (c)). -/
def zeroOrNormalized (x : Word) : Prop := (expOf x = 0 ∧ fracOf x = 0) ∨ (1 ≤ expOf x ∧ expOf x ≤ 254)

theorem zeroOrNormalized_flipSign (x : Word) : zeroOrNormalized (flipSign x) ↔ zeroOrNormalized x := by
  simp [zeroOrNormalized]

theorem zeroOrNormalized_baseOf (op : Op) (x : Word) : zeroOrNormalized (baseOf op x) ↔ zeroOrNormalized x := by
  simp [zeroOrNormalized]

theorem zeroOrNormalized_zeroOf (negative : Bool) : zeroOrNormalized (zeroOf negative) := by
  cases negative <;> exact .inl (by decide)

theorem zeroOrNormalized_saturated (negative : Bool) : zeroOrNormalized (saturated negative) := by
  cases negative <;> exact .inr (by decide)

theorem zeroOrNormalized_specialProductResult (cfg : Config) (op : Op) (ps : Bool) :
    zeroOrNormalized (specialProductResult cfg op ps) := by
  have hsat := zeroOrNormalized_saturated ps
  have hflip := (zeroOrNormalized_flipSign (saturated ps)).2 hsat
  cases op with
  | madd => exact hsat
  | msub => exact hsat
  | nmadd =>
    rw [specialProductResult]
    split_ifs
    · exact hflip
    · exact hsat
  | nmsub => exact hflip

theorem zeroOrNormalized_specialAddendResult (op : Op) (dsign : Bool) : zeroOrNormalized (specialAddendResult op dsign) :=
  (zeroOrNormalized_baseOf op _).2 (zeroOrNormalized_saturated _)

theorem zeroOrNormalized_packElement {s : Bool} {e : Int} {sig : Nat} (hlo : -126 ≤ e) (hhi : e ≤ 127) (hsig : sig < 2 ^ 24) :
    zeroOrNormalized (packElement s e sig) := by
  obtain ⟨-, hexp, -⟩ := parts_packElement (s := s) hlo hhi hsig
  exact .inr (by omega)

/-- The number of an element without its sign. -/
def magnitude (x : Word) : Nat := expOf x * 2 ^ 23 + fracOf x

theorem toNat_eq_magnitude (x : Word) : x.toNat = (signOf x).toNat * 2 ^ 31 + magnitude x := by
  rw [toNat_element, magnitude, add_assoc]

@[simp] theorem magnitude_baseOf (op : Op) (x : Word) : magnitude (baseOf op x) = magnitude x := by
  simp [magnitude]

theorem signOf_baseOf (op : Op) (x : Word) : signOf (baseOf op x) = (signOf x ^^ negates op) := by
  cases h : negates op <;> simp [baseOf, h]

/-- The packed rounded value is the packed truncated one or the next in magnitude, of the same sign (rules R114, R119). -/
theorem Rounding.Decomposes.magnitude_rounded {p : Rounding} {mode : RoundingMode} {T : Int} (h : p.Decomposes mode T)
    (hlo : -126 ≤ p.e) (hhi : p.er ≤ 127) :
    signOf (packElement p.sign p.er p.r) = signOf (packElement p.sign p.e p.t) ∧
      magnitude (packElement p.sign p.er p.r) = magnitude (packElement p.sign p.e p.t) + (p.up mode).toNat := by
  have hle := h.e_le_er
  have hge := h.le_t
  have hlt := h.t_lt
  have hup := (p.up mode).toNat_le
  obtain ⟨hsign, hexp, hfrac⟩ := parts_packElement (s := p.sign) (e := p.e) (by omega) (by omega) h.t_lt
  obtain ⟨hsign', hexp', hfrac'⟩ := parts_packElement (s := p.sign) (e := p.er) (by omega) (by omega) h.r_lt
  refine ⟨hsign'.trans hsign.symm, ?_⟩
  have he : p.e = (p.k : ℤ) - 300 := rfl
  have her : p.er = (p.kr : ℤ) - 300 := rfl
  simp only [magnitude, hfrac, hfrac']
  rcases h.carry with ⟨hkr, hr, -⟩ | ⟨hkr, hr, hcarry⟩ <;> omega

/-- What rule R119 (c), (d) and (e) say of a result. -/
structure ElemResult.Adjacent (r : ElemResult) : Prop where
  rounded_finite : zeroOrNormalized r.rounded
  truncated_finite : zeroOrNormalized r.truncated
  eq_of_exact : r.inx = false → r.rounded = r.truncated
  sign_eq : signOf r.rounded = signOf r.truncated
  next_up : magnitude r.rounded = magnitude r.truncated ∨ magnitude r.rounded = magnitude r.truncated + 1

/-- A result whose rounded and truncated elements are one finite word. -/
theorem ElemResult.Adjacent.of_eq {r : ElemResult} (h : zeroOrNormalized r.rounded) (heq : r.truncated = r.rounded) :
    r.Adjacent where
  rounded_finite := h
  truncated_finite := heq ▸ h
  eq_of_exact _ := heq.symm
  sign_eq := by rw [heq]
  next_up := .inl (by rw [heq])

theorem ElemResult.Adjacent.negateIf {r : ElemResult} (h : r.Adjacent) (op : Op) : (negateIf (negates op) r).Adjacent where
  rounded_finite := by rw [negateIf_rounded, zeroOrNormalized_baseOf]; exact h.rounded_finite
  truncated_finite := by rw [negateIf_truncated, zeroOrNormalized_baseOf]; exact h.truncated_finite
  eq_of_exact hinx := by
    rw [negateIf_inx] at hinx
    rw [negateIf_rounded, negateIf_truncated, h.eq_of_exact hinx]
  sign_eq := by rw [negateIf_rounded, negateIf_truncated, signOf_baseOf, signOf_baseOf, h.sign_eq]
  next_up := by
    rw [negateIf_rounded, negateIf_truncated, magnitude_baseOf, magnitude_baseOf]
    exact h.next_up

theorem zeroResult_adjacent (mode : RoundingMode) (inv productInexact ps ds : Bool) :
    (zeroResult mode inv productInexact ps ds).Adjacent :=
  .of_eq (zeroOrNormalized_zeroOf (zeroSumSign mode ps ds)) rfl

theorem nonzeroResult_adjacent {cfg : Config} {mode : RoundingMode} {T : Int} (hover : cfg.overflowDetect = .afterRounding)
    (hunder : cfg.underflowDetect = .beforeRounding) (hT : T ≠ 0) (inv productInexact : Bool) (free : Word) :
    (nonzeroResult cfg mode inv productInexact T free).Adjacent := by
  have hD := roundParts_decomposes mode hT
  cases hunf : underflows cfg (roundParts mode T) with
  | true =>
    rw [nonzeroResult_of_underflows hunf]
    exact .of_eq (zeroOrNormalized_zeroOf _) rfl
  | false =>
    cases hovf : overflows cfg (roundParts mode T) with
    | true =>
      rw [nonzeroResult_of_overflows hunf hovf]
      exact .of_eq (zeroOrNormalized_saturated _) rfl
    | false =>
      obtain ⟨hlo, hhi, hr⟩ := nonzeroResult_of_finite hover hunder hunf hovf inv productInexact free
      have hle := hD.e_le_er
      obtain ⟨hsign, hmagnitude⟩ := hD.magnitude_rounded hlo hhi
      rw [hr]
      refine ⟨zeroOrNormalized_packElement (by omega) hhi hD.r_lt, zeroOrNormalized_packElement hlo (by omega) hD.t_lt,
        fun hinx => ?_, hsign, ?_⟩
      · have hrem : (roundParts mode T).remainder = 0 := by
          by_contra hne
          simp [(roundParts mode T).inexact_iff.2 hne] at hinx
        rw [Rounding.up_eq_false_of_remainder_eq_zero hrem, Bool.toNat_false, add_zero] at hmagnitude
        exact BitVec.eq_of_toNat_eq (by rw [toNat_eq_magnitude, toNat_eq_magnitude, hsign, hmagnitude])
      · cases hup : (roundParts mode T).up mode with
        | false => exact .inl (by simpa [hup] using hmagnitude)
        | true => exact .inr (by simpa [hup] using hmagnitude)

/-- Every element's results are finite and adjacent (rule R119). -/
theorem elem_adjacent {cfg : Config} (hover : cfg.overflowDetect = .afterRounding)
    (hunder : cfg.underflowDetect = .beforeRounding) (op : Op) (isVector : Bool) (mode : RoundingMode) (a b d free : Word) :
    (elem cfg op isVector mode a b d free).Adjacent := by
  rcases elem_branches a b d with ⟨ha, hb, h⟩ | ⟨h, hd⟩ | ⟨h, hd⟩
  · rw [elem_specialMultiplicand cfg op isVector mode a b d free ha hb h]
    exact .of_eq (zeroOrNormalized_specialProductResult _ _ _) rfl
  · rw [elem_specialAddend cfg op isVector mode a b d free h hd]
    exact .of_eq (zeroOrNormalized_specialAddendResult _ _) rfl
  · by_cases hT : sumInt cfg op mode a b d = 0
    · rw [elem_of_sum_zero h hd hT]
      exact (zeroResult_adjacent _ _ _ _ _).negateIf op
    · rw [elem_of_sum_nonzero h hd hT]
      exact (nonzeroResult_adjacent hover hunder hT _ _ _).negateIf op

/-- Settles O55: the two finiteness clauses of `elem_adjacent`. -/
theorem resultsAreZeroOrNormalized : Obligations.ResultsAreZeroOrNormalized := by
  intro cfg op isVector mode a b d free hover hunder r
  have h := elem_adjacent hover hunder op isVector mode a b d free
  simp only [List.forall_mem_cons, List.not_mem_nil, false_implies, implies_true, and_true]
  exact ⟨h.rounded_finite, h.truncated_finite⟩

/-- Settles O56: elements of one sign compare as their numbers do. -/
theorem roundedIsTruncatedOrNextUp : Obligations.RoundedIsTruncatedOrNextUp := by
  intro cfg op isVector mode a b d free hover hunder r
  have h : r.Adjacent := elem_adjacent hover hunder op isVector mode a b d free
  refine ⟨h.eq_of_exact, h.sign_eq, ?_⟩
  rw [toNat_eq_magnitude, toNat_eq_magnitude, h.sign_eq]
  rcases h.next_up with hmagnitude | hmagnitude <;> omega

end Sys2Proof.Machine

/-! Spec 40_fp_common.md rules R114, R117: the finite result at the default detection points against the rational sum. -/

namespace Sys2Proof.Machine

theorem signFactor_ne_zero (negative : Bool) : signFactor negative ≠ 0 := by cases negative <;> simp [signFactor]

namespace Rounding

variable {p : Rounding} {mode : RoundingMode} {T : Int}

theorem abs_truncatedRat (p : Rounding) : |p.truncatedRat| = p.t * p.ulp := by
  have hulp := p.ulp_pos
  rw [truncatedRat, abs_mul, abs_signFactor, one_mul, abs_of_nonneg (by positivity)]

theorem abs_roundedRat (p : Rounding) (mode : RoundingMode) :
    |p.roundedRat mode| = |p.truncatedRat| + (if p.up mode = true then p.ulp else 0) := by
  have hulp := p.ulp_pos
  rw [abs_truncatedRat, roundedRat, abs_mul, abs_signFactor, one_mul, abs_of_nonneg (by positivity)]
  cases p.up mode <;> simp [add_mul]

/-- What truncation leaves out. -/
theorem Decomposes.abs_sub_truncatedRat (h : p.Decomposes mode T) :
    |(T : ℚ) / 2 ^ 300| - |p.truncatedRat| = p.rest * p.ulp := by
  rw [h.abs_eq, abs_truncatedRat]
  ring

theorem Decomposes.two_zpow_e_le_truncatedRat (h : p.Decomposes mode T) : (2 : ℚ) ^ p.e ≤ |p.truncatedRat| := by
  rw [abs_truncatedRat, two_zpow_e]
  exact mul_le_mul_of_nonneg_right h.le_t_rat p.ulp_pos.le

/-- A value with the factor of the sign of `T` has that sign. -/
theorem Decomposes.signFactor_mul_pos (h : p.Decomposes mode T) {m : ℚ} (hm : 0 < m) :
    0 < signFactor p.sign * m * ((T : ℚ) / 2 ^ 300) := by
  have hpos := h.abs_pos
  rw [h.abs_eq_of_sign] at hpos
  rw [mul_comm (signFactor p.sign), mul_assoc]
  exact mul_pos hm hpos

theorem Decomposes.truncatedRat_mul_pos (h : p.Decomposes mode T) : 0 < p.truncatedRat * ((T : ℚ) / 2 ^ 300) := by
  have hulp := p.ulp_pos
  have ht := h.le_t_rat
  exact h.signFactor_mul_pos (by positivity)

theorem Decomposes.roundedRat_mul_pos (h : p.Decomposes mode T) : 0 < p.roundedRat mode * ((T : ℚ) / 2 ^ 300) := by
  have hulp := p.ulp_pos
  have ht := h.le_t_rat
  exact h.signFactor_mul_pos (mul_pos (by positivity) hulp)

/-- Truncation changes a value exactly if something is left out. -/
theorem Decomposes.truncatedRat_ne_iff (h : p.Decomposes mode T) :
    p.guard = true ∨ p.sticky = true ↔ p.truncatedRat ≠ (T : ℚ) / 2 ^ 300 := by
  rw [← p.inexact_iff_guard_or_sticky, p.inexact_iff, ne_eq, ne_eq, not_iff_not, ← p.rest_eq_zero_iff,
    h.eq_signFactor_mul, truncatedRat, mul_right_inj' (signFactor_ne_zero _), mul_left_inj' p.ulp_pos.ne', left_eq_add]

theorem Decomposes.guard_iff_unit (h : p.Decomposes mode T) :
    p.guard = true ↔ (2 : ℚ) ^ (p.e - 24) ≤ |(T : ℚ) / 2 ^ 300| - |p.truncatedRat| := by
  have hhalf : p.ulp / 2 = 1 / 2 * p.ulp := by ring
  rw [h.abs_sub_truncatedRat, p.guard_iff_half_le_rest, two_zpow_e_sub, hhalf, mul_le_mul_iff_left₀ p.ulp_pos]

theorem Decomposes.sticky_iff_unit (h : p.Decomposes mode T) :
    p.sticky = true ↔ |(T : ℚ) / 2 ^ 300| - |p.truncatedRat| ≠ 0 ∧
      |(T : ℚ) / 2 ^ 300| - |p.truncatedRat| ≠ (2 : ℚ) ^ (p.e - 24) := by
  have hhalf : p.ulp / 2 = 1 / 2 * p.ulp := by ring
  rw [h.abs_sub_truncatedRat, p.sticky_iff_rest, two_zpow_e_sub, hhalf, ne_eq, ne_eq, ne_eq, ne_eq,
    mul_eq_zero_iff_right p.ulp_pos.ne', mul_left_inj' p.ulp_pos.ne']

theorem Decomposes.truncatedRat_le (h : p.Decomposes mode T) : |p.truncatedRat| ≤ |(T : ℚ) / 2 ^ 300| := by
  have hsub := h.abs_sub_truncatedRat
  have hrest := mul_nonneg p.rest_nonneg p.ulp_pos.le
  rw [← hsub] at hrest
  exact sub_nonneg.1 hrest

theorem Decomposes.lt_truncatedRat_add (h : p.Decomposes mode T) : |(T : ℚ) / 2 ^ 300| < |p.truncatedRat| + p.ulp := by
  have hrest := mul_lt_mul_of_pos_right h.rest_lt_one p.ulp_pos
  rw [one_mul, ← h.abs_sub_truncatedRat] at hrest
  exact sub_lt_iff_lt_add'.1 hrest

theorem Decomposes.two_zpow_e_le_roundedRat (h : p.Decomposes mode T) : (2 : ℚ) ^ p.e ≤ |p.roundedRat mode| := by
  have hulp := p.ulp_pos
  refine h.two_zpow_e_le_truncatedRat.trans ?_
  rw [abs_roundedRat]
  split_ifs <;> linarith

/-- The element of the truncated significand (rule R114). -/
theorem Decomposes.elemVal_truncated (h : p.Decomposes mode T) (hlo : -126 ≤ p.e) (hhi : p.e ≤ 127) :
    elemVal (packElement p.sign p.e p.t) = p.truncatedRat :=
  elemVal_packElement hlo hhi h.le_t h.t_lt

/-- The element of the rounded significand (rule R114). -/
theorem Decomposes.elemVal_rounded (h : p.Decomposes mode T) (hlo : -126 ≤ p.er) (hhi : p.er ≤ 127) :
    elemVal (packElement p.sign p.er p.r) = p.roundedRat mode := by
  rw [elemVal_packElement hlo hhi h.le_r h.r_lt, h.r_mul_two_zpow, roundedRat]

/-- The fraction of the rounded element is even where the significand before a carry is. -/
theorem Decomposes.even_frac_rounded (h : p.Decomposes mode T) (hlo : -126 ≤ p.er) (hhi : p.er ≤ 127)
    (heven : (p.t + (p.up mode).toNat) % 2 = 0) : fracOf (packElement p.sign p.er p.r) % 2 = 0 := by
  have hle := h.le_r
  obtain ⟨-, -, hfrac⟩ := parts_packElement (s := p.sign) hlo hhi h.r_lt
  rw [hfrac]
  rcases h.carry with ⟨-, hr, -⟩ | ⟨-, hr, -⟩ <;> omega

end Rounding

/-- The parity that decides a tie is that of the fraction (rule R114). -/
theorem odd_frac_iff {p : Rounding} {mode : RoundingMode} {T : Int} (h : p.Decomposes mode T) (hlo : -126 ≤ p.e)
    (hhi : p.e ≤ 127) : decide (fracOf (packElement p.sign p.e p.t) % 2 = 1) = (p.t % 2 == 1) := by
  have hle := h.le_t
  obtain ⟨-, -, hfrac⟩ := parts_packElement (s := p.sign) hlo hhi h.t_lt
  rw [Bool.eq_iff_iff, decide_eq_true_eq, beq_iff_eq, hfrac]
  omega

/-- Settles O52. -/
theorem finiteResultIsCorrectlyRounded : Obligations.FiniteResultIsCorrectlyRounded := by
  intro cfg op isVector mode a b d free P hP hover hunder h hd r T v vt up hovf hunf hT
  have hTq : T = _ := sumWith_eq_sumInt hP h op d
  have hT0 := mt (sumWith_eq_zero_iff hP h op d).2 hT
  have hD := roundParts_decomposes mode hT0
  have hneg : T < 0 ↔ (roundParts mode (sumInt cfg op mode a b d)).sign = true := by
    rw [hD.sign_eq, hTq, decide_eq_true_eq, fixedUnits_neg_iff]
  have hinexact := product_inexact_iff hP h
  have hunf' : underflows cfg (roundParts mode (sumInt cfg op mode a b d)) = false := by
    by_contra hu
    have := (elem_unf_iff (isVector := isVector) (free := free) h hd).2 ⟨hT0, by simpa using hu⟩
    exact absurd (hunf.symm.trans this) (by decide)
  have hovf' : overflows cfg (roundParts mode (sumInt cfg op mode a b d)) = false := by
    by_contra ho
    have := (elem_ovf_iff (isVector := isVector) (free := free) h hd).2 ⟨hT0, by simpa using ho⟩
    exact absurd (hovf.symm.trans this) (by decide)
  obtain ⟨hlo, hhi, hresult⟩ := nonzeroResult_of_finite hover hunder hunf' hovf' (invalidInput cfg isVector a b d)
    (product cfg mode a b).inexact free
  have hr : r = _ := elem_of_sum_nonzero h hd hT0
  rw [hresult] at hr
  generalize roundParts mode (sumInt cfg op mode a b d) = p at *
  have he : p.e ≤ 127 := hD.e_le_er.trans hhi
  have her : -126 ≤ p.er := hlo.trans hD.e_le_er
  have hrounded : baseOf op r.rounded = packElement p.sign p.er p.r := by rw [hr, negateIf_rounded, baseOf_baseOf]
  have htruncated : baseOf op r.truncated = packElement p.sign p.e p.t := by rw [hr, negateIf_truncated, baseOf_baseOf]
  have hg : r.g = p.guard := by rw [hr, negateIf_g]
  have hx : r.x = p.sticky := by rw [hr, negateIf_x]
  have hinx : r.inx = (p.inexact || (product cfg mode a b).inexact) := by rw [hr, negateIf_inx]
  have hvt : vt = p.truncatedRat := by rw [← hD.elemVal_truncated hlo he, ← htruncated]
  have hv : v = p.roundedRat mode := by rw [← hD.elemVal_rounded her hhi, ← hrounded]
  have hup : up = p.up mode := by
    have hodd := odd_frac_iff hD hlo he
    have hlt : decide (T < 0) = p.sign := by rw [Bool.eq_iff_iff, decide_eq_true_eq, hneg]
    have hgt : decide (0 < T) = !p.sign := by
      rw [← hlt, ← decide_not, decide_eq_decide, not_lt]
      exact ⟨le_of_lt, fun hle => lt_of_le_of_ne hle (Ne.symm hT)⟩
    rw [← htruncated, fracOf_baseOf] at hodd
    rw [p.up_eq_roundsUpFrom, ← hodd, ← hg, ← hx]
    simp only [up, hlt, hgt]
    cases mode <;> rfl
  clear_value up v vt T r
  subst hup hv hvt hTq
  rw [hg, hx, hinx]
  refine ⟨p.e, hD.two_zpow_e_le, hD.lt_two_zpow_e, hlo, he, hD.truncatedRat_mul_pos, hD.two_zpow_e_le_truncatedRat,
    hD.truncatedRat_le, hD.lt_truncatedRat_add, hD.roundedRat_mul_pos, hD.two_zpow_e_le_roundedRat, hD.guard_iff_unit,
    hD.sticky_iff_unit, hD.truncatedRat_ne_iff, ?_, p.abs_roundedRat mode, ?_⟩
  · rw [Bool.or_eq_true, hinexact, p.inexact_iff_guard_or_sticky, or_assoc]
  · cases mode with
    | rn =>
      obtain ⟨hnear, htie⟩ := hD.roundedRat_rn
      refine ⟨hnear, fun heq => ?_⟩
      rw [← fracOf_baseOf op, hrounded]
      exact hD.even_frac_rounded her hhi (htie heq)
    | rz => simp [Rounding.roundedRat, Rounding.truncatedRat, p.up_rz]
    | rp => exact hD.roundedRat_rp
    | rm => exact hD.roundedRat_rm

end Sys2Proof.Machine
